-- ==== Sys2Proof/Word.lean ====
section
/-! DEFINITION. The widths of the datapath and of the host interface (00_scope.md R6, 40_arithmetic.md R70). -/

namespace Sys2Proof

/-- `U8`: a host address, a host datum, a window byte (00_scope.md R6, R8). -/
abbrev Byte := BitVec 8

/-- `S32`: 32 bits read as two's complement (40_arithmetic.md R70). -/
abbrev S32 := BitVec 32

/-- `U32`: 32 bits read as unsigned (40_arithmetic.md R70). -/
abbrev U32 := BitVec 32

end Sys2Proof
end

