-- ==== Sys2Proof/Syntax.lean ====
section
/-! DEFINITION. The command set (30_encoding.md R61): one constructor per row of spec/opcode_table.json. -/

namespace Sys2Proof

/-- The eight commands. They carry no operands and no immediates (30_encoding.md R64). -/
inductive Instr where
  /-- 0x00, 45_system.md R130. -/
  | nop
  /-- 0x01, 41_calibration.md R90. -/
  | decode
  /-- 0x02, 41_calibration.md R92. -/
  | encode
  /-- 0x03, 42_temperature.md R100. -/
  | compT
  /-- 0x04, 43_pressure.md R110. -/
  | compP
  /-- 0x05, 44_humidity.md R120. -/
  | compH
  /-- 0x06, 45_system.md R131. -/
  | sample
  /-- 0x07, 45_system.md R132. -/
  | reset
deriving DecidableEq, Repr

end Sys2Proof
end

