-- ==== Sys2Proof/WellFormed.lean ====
section
/-! DEFINITION. What is checked of a command: its byte has the one format `CMD8` (30_encoding.md R60). A command as syntax
has no operand that could be ill-formed (R64), so every `Instr` is well formed. -/

namespace Sys2Proof

/-- The format check of R60: bits 7:3 of a defined command byte are 0b00000. -/
def CommandByte.wf (d : Byte) : Bool := d.extractLsb' 3 5 == 0b00000#5

/-- Commands carry no operands (R64): there is nothing in one to be ill-formed. -/
def Instr.wf : Instr → Bool
  | .nop => true
  | .decode => true
  | .encode => true
  | .compT => true
  | .compP => true
  | .compH => true
  | .sample => true
  | .reset => true

end Sys2Proof
end

