-- ==== Sys2Proof/Decode.lean ====
section
/-! DEFINITION. From command bytes to commands and back, by the opcode map (30_encoding.md R60 to R62). -/

namespace Sys2Proof

/-- Why a byte is no command. -/
inductive DecodeError where
  /-- Bytes 0x08 to 0xFF are reserved (30_encoding.md R62). -/
  | reservedCommand (d : Byte)
deriving DecidableEq, Repr

/-- One row of the opcode map: the byte matches when its bits under the mask are the pattern. -/
structure OpcodeRow where
  mask : Byte
  pattern : Byte
  instr : Instr
deriving DecidableEq, Repr

/-- The opcode map of 30_encoding.md R61. -/
def opcodeMap : List OpcodeRow :=
  [ ⟨0xFF#8, 0x00#8, .nop⟩,
    ⟨0xFF#8, 0x01#8, .decode⟩,
    ⟨0xFF#8, 0x02#8, .encode⟩,
    ⟨0xFF#8, 0x03#8, .compT⟩,
    ⟨0xFF#8, 0x04#8, .compP⟩,
    ⟨0xFF#8, 0x05#8, .compH⟩,
    ⟨0xFF#8, 0x06#8, .sample⟩,
    ⟨0xFF#8, 0x07#8, .reset⟩ ]

/-- A byte is the command whose row it matches, and reserved when it matches none: never the command of its low
three bits (30_encoding.md R62). -/
def decode (d : Byte) : Except DecodeError Instr :=
  match opcodeMap.find? (fun r => d &&& r.mask == r.pattern) with
  | some r => .ok r.instr
  | none => .error (.reservedCommand d)

/-- The byte of a command (30_encoding.md R60: bits 7:3 zero, bits 2:0 the operation number). -/
def encode : Instr → Byte
  | .nop => 0b00000#5 ++ 0#3
  | .decode => 0b00000#5 ++ 1#3
  | .encode => 0b00000#5 ++ 2#3
  | .compT => 0b00000#5 ++ 3#3
  | .compP => 0b00000#5 ++ 4#3
  | .compH => 0b00000#5 ++ 5#3
  | .sample => 0b00000#5 ++ 6#3
  | .reset => 0b00000#5 ++ 7#3

/-- The number whose low `nbits` bits are the table's word, every bit above them 0. -/
def tableWord (nbits w : Nat) : Nat := w % 2 ^ nbits

/-- What the decoder reads from the instruction whose bits are `w`, bit 0 the least significant bit of its first byte.
Commands are one byte long (30_encoding.md R60), so a number with a bit above bit 7 is none. -/
def decodeTableWord (nbits w : Nat) : Option Instr :=
  if tableWord nbits w < 256 then (decode (BitVec.ofNat 8 (tableWord nbits w))).toOption else none

end Sys2Proof
end

