-- ==== Sys2Proof/Machine/Arith.lean ====
section
/-! DEFINITION. The datapath's primitives (40_arithmetic.md R70 to R82): the exact integer result, narrowed to 32 bits at the
end, and whether it fitted. A primitive that can never overflow answers the value alone. -/

namespace Sys2Proof.Machine

/-- What a primitive that can overflow answers: its value, always defined, and its `ovf`. -/
structure Result where
  val : BitVec 32
  ovf : Bool
deriving DecidableEq, Repr

/-- `wrapS` and `wrapU` (R70): both keep the low 32 bits of the integer; they differ only in how the bits are read. -/
def wrap (z : Int) : BitVec 32 := BitVec.ofInt 32 z

/-- Whether `z` is an S32 (R70). -/
def fitsS (z : Int) : Bool := decide (-2147483648 ≤ z) && decide (z ≤ 2147483647)

/-- Whether `z` is a U32 (R70). -/
def fitsU (z : Int) : Bool := decide (0 ≤ z) && decide (z < 4294967296)

/-- An exact result narrowed to S32. -/
def narrowS (z : Int) : Result := { val := wrap z, ovf := !fitsS z }

/-- An exact result narrowed to U32. -/
def narrowU (z : Int) : Result := { val := wrap z, ovf := !fitsU z }

/-- R71. -/
def adds (a b : S32) : Result := narrowS (a.toInt + b.toInt)

/-- R72. The product is truncated to 32 bits before any shift that follows. -/
def muls (a b : S32) : Result := narrowS (a.toInt * b.toInt)

/-- R73. -/
def subs (a b : S32) : Result := narrowS (a.toInt - b.toInt)

/-- R74. -/
def shls (a : S32) (k : Nat) : Result := narrowS (a.toInt * ((2 ^ k : Nat) : Int))

/-- R75: the arithmetic right shift, rounding toward minus infinity (`/` on `Int` is the floor for a positive divisor). -/
def asr (a : S32) (k : Nat) : S32 := wrap (a.toInt / ((2 ^ k : Nat) : Int))

/-- R82: the quotient truncated toward zero. -/
def divs (a : S32) (b : Nat) : S32 := wrap (a.toInt.tdiv (b : Int))

/-- R76. -/
def mulu (a b : U32) : Result := narrowU ((a.toNat : Int) * (b.toNat : Int))

/-- R77. -/
def shlu (a : U32) (k : Nat) : Result := narrowU ((a.toNat : Int) * ((2 ^ k : Nat) : Int))

/-- R78: the logical right shift. -/
def lsr (a : U32) (k : Nat) : U32 := BitVec.ofNat 32 (a.toNat / 2 ^ k)

/-- R79, the floor of the quotient. R79 gives no value for a zero divisor and says that none is ever met: COMP_P divides
only past its zero guard (43_pressure.md R111), and by 100. Lean's own quotient by 0 stands there
(DESIGN CHOICE, log entry 7; safe: no command reaches it). -/
def divu (a b : U32) : U32 := BitVec.ofNat 32 (a.toNat / b.toNat)

/-- R80: the same 32 bits read as unsigned. -/
def s2u (a : S32) : Result := narrowU a.toInt

/-- R81: the same 32 bits read as two's complement. -/
def u2s (a : U32) : Result := narrowS (a.toNat : Int)

/-- Whether any of the primitives a command evaluated overflowed (R83). -/
def anyOvf (rs : List Result) : Bool := rs.any (fun r => r.ovf)

/-- An unsigned operand widened to S32 without change of value (10_state.md R12; R70). -/
def zx {n : Nat} (v : BitVec n) : S32 := v.setWidth 32

/-- A signed operand widened to S32 without change of value (10_state.md R12; R70). -/
def sx {n : Nat} (v : BitVec n) : S32 := v.signExtend 32

end Sys2Proof.Machine
end

