-- ==== Sys2Proof/Config.lean ====
section
/-! DEFINITION. What an implementation fixes. The spec leaves no value free (93_implementation_defined.md, after U18), so
nothing here is opaque: the one parameter's default, and what a window byte nothing has written reads as. -/

namespace Sys2Proof

/-- The default of the one parameter `H6_SIGNED` (00_scope.md R7). The value in force is carried in
`State.h6Signed`, so that statements about every state cover both (DESIGN CHOICE, log entry 3; safe). -/
def Config.h6SignedDefault : Bool := false

/-- What a window byte reads as until the host writes it: its reset value (10_state.md R27; log entry 12). -/
def Config.unwrittenByte : Byte := 0x00#8

end Sys2Proof
end

