-- ==== Sys2Proof/Machine/State.lean ====
section
/-! DEFINITION. The block's whole state (10_state.md R10), the host's transactions it is to perform, and the state after reset
(10_state.md R27). -/

namespace Sys2Proof.Machine

/-- The window bytes by host address, in one canonical form (`Memory.wf`): addresses strictly rising, only window addresses,
no entry equal to `Config.unwrittenByte`, which is what an unlisted address reads as (the list: DESIGN CHOICE, log entry 12;
safe). -/
abbrev Memory := List Host.Cell

/-- The coefficient file `x[0]` to `x[17]` (10_state.md R12), each register at the width of its type. The types say how the
bits are read: U16 for T1 and P1, U8 for H1 and H3, S12 for H4 and H5, S16 for the others; H6 is U8, or S8 when
`State.h6Signed`. Its 256 bits are exactly the 2^256 values of 41_calibration.md R94 (DESIGN CHOICE, log
entry 11; safe). -/
structure Coefs where
  t1 : BitVec 16
  t2 : BitVec 16
  t3 : BitVec 16
  p1 : BitVec 16
  p2 : BitVec 16
  p3 : BitVec 16
  p4 : BitVec 16
  p5 : BitVec 16
  p6 : BitVec 16
  p7 : BitVec 16
  p8 : BitVec 16
  p9 : BitVec 16
  h1 : BitVec 8
  h2 : BitVec 16
  h3 : BitVec 8
  h4 : BitVec 12
  h5 : BitVec 12
  h6 : BitVec 8
deriving DecidableEq, Repr

/-- The five flags of `STATUS` (10_state.md R23). Bits 7:5 hold nothing: they read as 0. -/
structure Status where
  /-- Bit 0, CAL_VALID. -/
  calValid : Bool
  /-- Bit 1, T_VALID. -/
  tValid : Bool
  /-- Bit 2, P_VALID. -/
  pValid : Bool
  /-- Bit 3, H_VALID. -/
  hValid : Bool
  /-- Bit 4, P_GUARD. -/
  pGuard : Bool
deriving DecidableEq, Repr

/-- The five sticky flags of `ERRSTAT` (10_state.md R24). Bits 7:5 hold nothing: they read as 0. -/
structure ErrStat where
  /-- Bit 0, OVF. -/
  ovf : Bool
  /-- Bit 1, ORDER. -/
  order : Bool
  /-- Bit 2, ERR_CMD. -/
  errCmd : Bool
  /-- Bit 3, ERR_SEQ. -/
  errSeq : Bool
  /-- Bit 4, ERR_ADDR. -/
  errAddr : Bool
deriving DecidableEq, Repr

/-- The flags that `raise` sets: the three refusals (60_exceptions.md R142 to R144). -/
inductive RefusalFlag where
  /-- A reserved command byte (R142). -/
  | errCmd
  /-- A command refused for its place in the sequence (R143). -/
  | errSeq
  /-- A reserved address, or a write to a read-only one (R144). -/
  | errAddr
deriving DecidableEq, Repr

/-- What the host asks of the block, one atomic step each (20_memory.md R40). -/
inductive Transaction where
  /-- The hardware reset (70_reset_and_hazards.md R160). -/
  | reset
  /-- `Write(a, d)` (20_memory.md R43). -/
  | write (a d : Byte)
  /-- `Read(a)` (20_memory.md R44). -/
  | read (a : Byte)
deriving DecidableEq, Repr

/-- No step of this machine faults: "every transaction in every state has exactly one successor state"
(93_implementation_defined.md, after U18), and there is no trap (60_exceptions.md R140). So no constructor raises one
(DEDUCED, log entry 6; safe: nothing is stopped that the spec lets go on). -/
inductive Fault
deriving DecidableEq, Repr

/-- A step without a meaning. The refusals of 60_exceptions.md are no such thing: they are next states with a flag set. -/
inductive Refusal where
  /-- Raised by an arm of `exec` whose command has no meaning in the model; safe, since nothing can be proved of a next
  state there is not. No arm raises it. -/
  | notModelled (mnemonic : String)
deriving DecidableEq, Repr

/-- All the block holds (10_state.md R10: "Nothing else is state"), and beside it the step's arguments and answer. -/
structure State where
  /-- The 40 window bytes `W[a]` (10_state.md R11). -/
  win : Memory
  /-- The coefficient file (10_state.md R12). -/
  coef : Coefs
  /-- `T_FINE`, an S32 (10_state.md R17). -/
  tFine : S32
  /-- `TEMP`, an S32, tenths of a degree Celsius (10_state.md R18). -/
  temp : S32
  /-- `PRESS`, a U32, hectopascals (10_state.md R19). -/
  press : U32
  /-- `HUM`, a U32, percent (10_state.md R20). -/
  hum : U32
  /-- `STATUS` (10_state.md R23). -/
  status : Status
  /-- `ERRSTAT` (10_state.md R24). -/
  errstat : ErrStat
  /-- The parameter `H6_SIGNED` (00_scope.md R7): no step writes it (DESIGN CHOICE, log entry 3; safe). -/
  h6Signed : Bool
  /-- The host's transactions still to be performed, oldest first (20_memory.md R40, R50): the step's input
  (DESIGN CHOICE, log entry 1; safe). -/
  pending : List Transaction
  /-- What the last transaction answered: a `Read` its byte, another nothing (20_memory.md R40)
  (DESIGN CHOICE, log entry 2; safe). -/
  reply : Option Byte
deriving DecidableEq, Repr

/-- The coefficient file after reset (10_state.md R27). -/
def Coefs.reset : Coefs where
  t1 := 0
  t2 := 0
  t3 := 0
  p1 := 0
  p2 := 0
  p3 := 0
  p4 := 0
  p5 := 0
  p6 := 0
  p7 := 0
  p8 := 0
  p9 := 0
  h1 := 0
  h2 := 0
  h3 := 0
  h4 := 0
  h5 := 0
  h6 := 0

/-- The machine right after reset (10_state.md R27, 70_reset_and_hazards.md R161), the parameter at its default, no
transaction of the host's outstanding and none answered (log entries 1 to 3). -/
def State.reset : State where
  win := []
  coef := Coefs.reset
  tFine := 0
  temp := 0
  press := 0
  hum := 0
  status := { calValid := false, tValid := false, pValid := false, hValid := false, pGuard := false }
  errstat := { ovf := false, order := false, errCmd := false, errSeq := false, errAddr := false }
  h6Signed := Config.h6SignedDefault
  pending := []
  reply := none

end Sys2Proof.Machine
end

