-- ==== Sys2Proof/Machine/Flags.lean ====
section
/-! DEFINITION. The flags of STATUS and ERRSTAT: the bytes the host reads, and how a command or a refusal sets them
(10_state.md R23, R24; 60_exceptions.md R141, R154). -/

namespace Sys2Proof.Machine

/-- The byte at 0x01 (10_state.md R23): CAL_VALID is bit 0, P_GUARD bit 4, bits 7:5 are 0. -/
def Status.byte (f : Status) : Byte :=
  0#3 ++ BitVec.ofBool f.pGuard ++ BitVec.ofBool f.hValid ++ BitVec.ofBool f.pValid ++ BitVec.ofBool f.tValid
    ++ BitVec.ofBool f.calValid

/-- The byte at 0x02 (10_state.md R24; the bit numbers are the cause codes of 60_exceptions.md R154): OVF is bit 0,
ERR_ADDR bit 4, bits 7:5 are 0. -/
def ErrStat.byte (e : ErrStat) : Byte :=
  0#3 ++ BitVec.ofBool e.errAddr ++ BitVec.ofBool e.errSeq ++ BitVec.ofBool e.errCmd ++ BitVec.ofBool e.order
    ++ BitVec.ofBool e.ovf

/-- A refusal's flag set, the others as they were (60_exceptions.md R141, R150). -/
def ErrStat.refuse (e : ErrStat) (f : RefusalFlag) : ErrStat :=
  match f with
  | .errCmd => { e with errCmd := true }
  | .errSeq => { e with errSeq := true }
  | .errAddr => { e with errAddr := true }

/-- A command's informational flags, committed: each is set when due and never cleared (40_arithmetic.md R83,
60_exceptions.md R145, R146, R148). -/
def ErrStat.note (e : ErrStat) (ovf order : Bool) : ErrStat :=
  { e with ovf := e.ovf || ovf, order := e.order || order }

end Sys2Proof.Machine
end

