-- ==== Sys2Proof/Machine/Ops.lean ====
section
/-! DEFINITION. The named operations over the window and the state: reading and writing a window byte, `raise`
(60_exceptions.md R141, the one thing this block has in place of taking an exception), the sequence checks
(30_encoding.md R63 steps 4 and 5) and returning to the reset state (45_system.md R132). There is no return from an
exception (60_exceptions.md R150). -/

namespace Sys2Proof.Machine

/-- CALW, the 32 calibration bytes (10_state.md R11). -/
def isCalw (a : Nat) : Bool :=
  decide (0x88 ≤ a ∧ a ≤ 0x9F) || decide (a = 0xA1) || decide (0xE1 ≤ a ∧ a ≤ 0xE7)

/-- RAWW, the 8 data bytes (10_state.md R11). -/
def isRaww (a : Nat) : Bool := decide (0xF7 ≤ a ∧ a ≤ 0xFE)

/-- `W[a]`. -/
def Memory.read : Memory → Nat → Byte
  | [], _ => Config.unwrittenByte
  | (k, v) :: m, a => if k = a then v else Memory.read m a

/-- `W[a] <- b`, keeping the canonical form: the value an unlisted address reads as is stored by listing nothing. -/
def Memory.write : Memory → Nat → Byte → Memory
  | [], a, b => if b = Config.unwrittenByte then [] else [(a, b)]
  | (k, v) :: m, a, b =>
    if a < k then
      if b = Config.unwrittenByte then (k, v) :: m else (a, b) :: (k, v) :: m
    else if a = k then
      if b = Config.unwrittenByte then m else (a, b) :: m
    else (k, v) :: Memory.write m a b

/-- The writes of a list, one after another. -/
def Memory.writeAll (m : Memory) (cells : List Host.Cell) : Memory :=
  cells.foldl (fun m c => Memory.write m c.1 c.2) m

/-- The canonical form: addresses strictly rising, each a window address, no entry equal to what an unlisted address
reads as. -/
abbrev Memory.wf (m : Memory) : Prop :=
  m.Pairwise (fun p q => p.1 < q.1) ∧
    ∀ c ∈ m, c.2 ≠ Config.unwrittenByte ∧ (isCalw c.1 || isRaww c.1) = true

/-- `raise <Flag>` (60_exceptions.md R141, R149): the one flag, and no other state. -/
def raise (f : RefusalFlag) (s : State) : State := { s with errstat := s.errstat.refuse f }

/-- The sequence check of ENCODE and the compensation commands (30_encoding.md R63 step 5, 60_exceptions.md R143). -/
def ifCalibrated (s : State) (body : State → State) : Host.Outcome State Fault Refusal :=
  if s.status.calValid then .next (body s) else .next (raise .errSeq s)

/-- The sequence check of DECODE (30_encoding.md R63 step 4, 60_exceptions.md R143). -/
def ifUncalibrated (s : State) (body : State → State) : Host.Outcome State Fault Refusal :=
  if s.status.calValid then .next (raise .errSeq s) else .next (body s)

/-- Every piece of the block's state at its reset value (10_state.md R27). What is not the block's state stays: the
parameter, the host's transactions, the answer (DEDUCED, log entry 5; safe). -/
def toReset (s : State) : State :=
  { State.reset with h6Signed := s.h6Signed, pending := s.pending, reply := s.reply }

end Sys2Proof.Machine
end

