-- ==== Sys2Proof/Machine/Operands.lean ====
section
/-! DEFINITION. Every operand a command or a host access can name: raw samples and little-endian words of the window,
coefficients as S32 operands and as the words of COEF_RB, and the address map. -/

namespace Sys2Proof.Machine

/-- `le16(a) = W[a+1] : W[a]` (41_calibration.md R91). -/
def le16 (m : Memory) (a : Nat) : BitVec 16 := Memory.read m (a + 1) ++ Memory.read m a

/-- `rawT` (10_state.md R14). -/
def rawT (m : Memory) : BitVec 20 :=
  Memory.read m 0xFA ++ Memory.read m 0xFB ++ (Memory.read m 0xFC).extractLsb' 4 4

/-- `rawP` (10_state.md R15). -/
def rawP (m : Memory) : BitVec 20 :=
  Memory.read m 0xF7 ++ Memory.read m 0xF8 ++ (Memory.read m 0xF9).extractLsb' 4 4

/-- `rawH` (10_state.md R16). -/
def rawH (m : Memory) : BitVec 16 := Memory.read m 0xFD ++ Memory.read m 0xFE

/-- H6 as an S32 operand: U8, or S8 when `H6_SIGNED` (00_scope.md R7). -/
def h6Operand (h6Signed : Bool) (c : Coefs) : S32 := if h6Signed then sx c.h6 else zx c.h6

/-- The word of COEF_RB for coefficient `i` (10_state.md R13): an unsigned coefficient zero-extended, a signed one
sign-extended to 16 bits. There are 18; past them stands 0, which no address reaches. -/
def coefWord (h6Signed : Bool) (c : Coefs) (i : Nat) : BitVec 16 :=
  match i with
  | 0 => c.t1
  | 1 => c.t2
  | 2 => c.t3
  | 3 => c.p1
  | 4 => c.p2
  | 5 => c.p3
  | 6 => c.p4
  | 7 => c.p5
  | 8 => c.p6
  | 9 => c.p7
  | 10 => c.p8
  | 11 => c.p9
  | 12 => c.h1.setWidth 16
  | 13 => c.h2
  | 14 => c.h3.setWidth 16
  | 15 => c.h4.signExtend 16
  | 16 => c.h5.signExtend 16
  | 17 => if h6Signed then c.h6.signExtend 16 else c.h6.setWidth 16
  | _ => 0

/-- Byte `j` of a little-endian register (20_memory.md R45). -/
def byteOf {n : Nat} (v : BitVec n) (j : Nat) : Byte := v.extractLsb' (8 * j) 8

/-- What stands at a host address (20_memory.md R42); `j` counts bytes from the register's lowest address. -/
inductive Place where
  | cmd
  | status
  | errstat
  | tFine (j : Nat)
  | temp (j : Nat)
  | press (j : Nat)
  | hum (j : Nat)
  | coef (i j : Nat)
  | calw
  | raww
  | reserved
deriving DecidableEq, Repr

/-- The address map (20_memory.md R42). -/
def place (a : Nat) : Place :=
  if a = 0x00 then .cmd
  else if a = 0x01 then .status
  else if a = 0x02 then .errstat
  else if a = 0x03 then .reserved
  else if a ≤ 0x07 then .tFine (a - 0x04)
  else if a ≤ 0x0B then .temp (a - 0x08)
  else if a ≤ 0x0F then .press (a - 0x0C)
  else if a ≤ 0x13 then .hum (a - 0x10)
  else if a ≤ 0x1F then .reserved
  else if a ≤ 0x43 then .coef ((a - 0x20) / 2) ((a - 0x20) % 2)
  else if isCalw a then .calw
  else if isRaww a then .raww
  else .reserved

end Sys2Proof.Machine
end

