-- ==== Sys2Proof/Machine/Calibration.lean ====
section
/-! DEFINITION. DECODE and ENCODE (41_calibration.md). -/

namespace Sys2Proof.Machine

/-- `dec` (41_calibration.md R91): the coefficients from the 32 calibration bytes. -/
def dec (m : Memory) : Coefs where
  t1 := le16 m 0x88
  t2 := le16 m 0x8A
  t3 := le16 m 0x8C
  p1 := le16 m 0x8E
  p2 := le16 m 0x90
  p3 := le16 m 0x92
  p4 := le16 m 0x94
  p5 := le16 m 0x96
  p6 := le16 m 0x98
  p7 := le16 m 0x9A
  p8 := le16 m 0x9C
  p9 := le16 m 0x9E
  h1 := Memory.read m 0xA1
  h2 := le16 m 0xE1
  h3 := Memory.read m 0xE3
  h4 := Memory.read m 0xE4 ++ (Memory.read m 0xE5).extractLsb' 0 4
  h5 := Memory.read m 0xE6 ++ (Memory.read m 0xE5).extractLsb' 4 4
  h6 := Memory.read m 0xE7

/-- A 16-bit coefficient as its two window bytes, low byte first (20_memory.md R46). -/
def word16 (a : Nat) (v : BitVec 16) : List Host.Cell := [(a, byteOf v 0), (a + 1, byteOf v 1)]

/-- `enc` (41_calibration.md R93): the 32 calibration bytes from the coefficients. -/
def enc (c : Coefs) : List Host.Cell :=
  word16 0x88 c.t1 ++ word16 0x8A c.t2 ++ word16 0x8C c.t3 ++
  word16 0x8E c.p1 ++ word16 0x90 c.p2 ++ word16 0x92 c.p3 ++ word16 0x94 c.p4 ++ word16 0x96 c.p5 ++
  word16 0x98 c.p6 ++ word16 0x9A c.p7 ++ word16 0x9C c.p8 ++ word16 0x9E c.p9 ++
  [(0xA1, c.h1)] ++ word16 0xE1 c.h2 ++ [(0xE3, c.h3)] ++
  [(0xE4, c.h4.extractLsb' 4 8),
   (0xE5, c.h5.extractLsb' 0 4 ++ c.h4.extractLsb' 0 4),
   (0xE6, c.h5.extractLsb' 4 8),
   (0xE7, c.h6)]

/-- DECODE past its sequence check. -/
def decodeBody (s : State) : State :=
  { s with coef := dec s.win, status := { s.status with calValid := true } }

/-- ENCODE past its sequence check. -/
def encodeBody (s : State) : State := { s with win := Memory.writeAll s.win (enc s.coef) }

/-- DECODE (41_calibration.md R90). -/
def execDecode (s : State) : Host.Outcome State Fault Refusal := ifUncalibrated s decodeBody

/-- ENCODE (41_calibration.md R92). -/
def execEncode (s : State) : Host.Outcome State Fault Refusal := ifCalibrated s encodeBody

end Sys2Proof.Machine
end

