-- ==== Sys2Proof/Machine/Humidity.lean ====
section
/-! DEFINITION. COMP_H (44_humidity.md). -/

namespace Sys2Proof.Machine

/-- A value of the humidity formula and whether any primitive overflowed. -/
structure HumResult where
  val : BitVec 32
  ovf : Bool
deriving DecidableEq, Repr

/-- The accumulator `v` before the clamp (44_humidity.md R120). -/
def humAccumulate (raw tf : S32) (h6Signed : Bool) (c : Coefs) : HumResult :=
  let x := subs tf 76800
  let lr := shls raw 14
  let l4 := shls (sx c.h4) 20
  let d4 := subs lr.val l4.val
  let m5 := muls (sx c.h5) x.val
  let d5 := subs d4.val m5.val
  let ar := adds d5.val 16384
  let a := asr ar.val 15
  let m6 := muls x.val (h6Operand h6Signed c)
  let b1 := asr m6.val 10
  let m3 := muls x.val (zx c.h3)
  let b2 := adds (asr m3.val 11) 32768
  let mb := muls b1 b2.val
  let ba := adds (asr mb.val 10) 2097152
  let m2 := muls ba.val (sx c.h2)
  let br := adds m2.val 8192
  let b := asr br.val 14
  let v := muls a b
  let s := asr v.val 15
  let ss := muls s s
  let m1 := muls (asr ss.val 7) (zx c.h1)
  let v' := subs v.val (asr m1.val 4)
  { val := v'.val
    ovf := anyOvf [x, lr, l4, d4, m5, d5, ar, m6, m3, b2, mb, ba, m2, br, v, ss, m1, v'] }

/-- The two clamp tests, in the order of 44_humidity.md R120, R121. -/
def humClamp (v : S32) : S32 :=
  let low : S32 := if v.toInt < 0 then 0 else v
  if 419430400 < low.toInt then 419430400 else low

/-- The formula of 44_humidity.md R120: `HUM` and the overflow indication. -/
def compensateHum (raw tf : S32) (h6Signed : Bool) (c : Coefs) : HumResult :=
  let v := humAccumulate raw tf h6Signed c
  { val := asr (humClamp v.val) 22, ovf := v.ovf }

/-- A humidity result, written (44_humidity.md R120; 30_encoding.md R63 step 7). ORDER records a missing temperature
(R122). -/
def commitHum (r : HumResult) (s : State) : State :=
  { s with
    hum := r.val
    status := { s.status with hValid := true }
    errstat := s.errstat.note r.ovf (!s.status.tValid) }

/-- COMP_H past its sequence check (44_humidity.md R120). -/
def humBody (s : State) : State := commitHum (compensateHum (zx (rawH s.win)) s.tFine s.h6Signed s.coef) s

/-- COMP_H (44_humidity.md R120). -/
def execCompH (s : State) : Host.Outcome State Fault Refusal := ifCalibrated s humBody

end Sys2Proof.Machine
end

