-- ==== Sys2Proof/Machine/Pressure.lean ====
section
/-! DEFINITION. COMP_P (43_pressure.md), its formula cut where R110 cuts it. -/

namespace Sys2Proof.Machine

/-- The first stage's two values: the denominator `v1`, and `v2`. -/
structure PressFirst where
  v1 : S32
  v2 : S32
  ovf : Bool
deriving DecidableEq, Repr

/-- A U32 value of the later stages. -/
structure PressValue where
  p : U32
  ovf : Bool
deriving DecidableEq, Repr

/-- What the pressure formula yields: `PRESS`, whether the zero guard was taken, whether any primitive overflowed. -/
structure PressResult where
  press : U32
  guard : Bool
  ovf : Bool
deriving DecidableEq, Repr

/-- The first stage (43_pressure.md R110). -/
def pressFirst (tf : S32) (c : Coefs) : PressFirst :=
  let v1 := subs (asr tf 1) 64000
  let q := asr v1.val 2
  let sq := muls q q
  let v2a := muls (asr sq.val 11) (sx c.p6)
  let m5 := muls v1.val (sx c.p5)
  let l5 := shls m5.val 1
  let v2b := adds v2a.val l5.val
  let l4 := shls (sx c.p4) 16
  let v2 := adds (asr v2b.val 2) l4.val
  let m3 := muls (sx c.p3) (asr sq.val 13)
  let m2 := muls (sx c.p2) v1.val
  let sum := adds (asr m3.val 3) (asr m2.val 1)
  let w := adds 32768 (asr sum.val 18)
  let m1 := muls w.val (zx c.p1)
  { v1 := asr m1.val 15
    v2 := v2.val
    ovf := anyOvf [v1, sq, v2a, m5, l5, v2b, l4, v2, m3, m2, sum, w, m1] }

/-- The scaled pressure accumulator `p` (43_pressure.md R110). -/
def pressAccumulate (raw v2 : S32) : PressValue :=
  let d1 := subs 1048576 raw
  let d := subs d1.val (asr v2 12)
  let du := s2u d.val
  let p := mulu du.val 3125
  { p := p.val, ovf := anyOvf [d1, d, du, p] }

/-- The two finishing formulas, chosen at 2^31 (43_pressure.md R110). -/
def pressFinish (p dv : U32) : PressValue :=
  if p.toNat < 0x80000000 then
    let l := shlu p 1
    { p := divu l.val dv, ovf := anyOvf [l] }
  else
    let m := mulu (divu p dv) 2
    { p := m.val, ovf := anyOvf [m] }

/-- The second stage: the pressure in pascal (43_pressure.md R110). -/
def pressSecond (p : U32) (c : Coefs) : PressValue :=
  let s := lsr p 3
  let ss := mulu s s
  let w := u2s (lsr ss.val 13)
  let m9 := muls (sx c.p9) w.val
  let p4 := u2s (lsr p 2)
  let m8 := muls p4.val (sx c.p8)
  let a98 := adds (asr m9.val 12) (asr m8.val 13)
  let a7 := adds a98.val (sx c.p7)
  let t := asr a7.val 4
  let ps := u2s p
  let sum := adds ps.val t
  let pa := s2u sum.val
  { p := pa.val, ovf := anyOvf [ss, w, m9, p4, m8, a98, a7, ps, sum, pa] }

/-- The formula of 43_pressure.md R110 with its zero guard (R111): the guard tests the computed denominator, and what
follows it is then not evaluated. -/
def compensatePress (raw tf : S32) (c : Coefs) : PressResult :=
  let first := pressFirst tf c
  if first.v1 = 0 then { press := 0, guard := true, ovf := first.ovf }
  else
    let acc := pressAccumulate raw first.v2
    let dv := s2u first.v1
    let fin := pressFinish acc.p dv.val
    let pa := pressSecond fin.p c
    { press := divu pa.p 100
      guard := false
      ovf := first.ovf || acc.ovf || dv.ovf || fin.ovf || pa.ovf }

/-- A pressure result, written (43_pressure.md R110; 30_encoding.md R63 step 7). ORDER records a missing temperature
(R112). -/
def commitPress (r : PressResult) (s : State) : State :=
  { s with
    press := r.press
    status := { s.status with pValid := true, pGuard := r.guard }
    errstat := s.errstat.note r.ovf (!s.status.tValid) }

/-- COMP_P past its sequence check (43_pressure.md R110). -/
def pressBody (s : State) : State := commitPress (compensatePress (zx (rawP s.win)) s.tFine s.coef) s

/-- COMP_P (43_pressure.md R110). -/
def execCompP (s : State) : Host.Outcome State Fault Refusal := ifCalibrated s pressBody

end Sys2Proof.Machine
end

