-- ==== Sys2Proof/Machine/Temperature.lean ====
section
/-! DEFINITION. COMP_T (42_temperature.md). -/

namespace Sys2Proof.Machine

/-- What the temperature formula yields: `tf`, `tenths`, and whether any primitive overflowed. -/
structure TempResult where
  tFine : S32
  temp : S32
  ovf : Bool
deriving DecidableEq, Repr

/-- The formula of 42_temperature.md R100, its names kept (`d` is `subs(a, b)`, `m1`, `m2`, `m3` the products). -/
def compensateTemp (raw : S32) (c : Coefs) : TempResult :=
  let t1 := zx c.t1
  let a := asr raw 3
  let b := shls t1 1
  let d := subs a b.val
  let m1 := muls d.val (sx c.t2)
  let var1 := asr m1.val 11
  let e := subs (asr raw 4) t1
  let ee := muls e.val e.val
  let m2 := muls (asr ee.val 12) (sx c.t3)
  let var2 := asr m2.val 14
  let tf := adds var1 var2
  let m3 := muls tf.val 5
  let r := adds m3.val 128
  let centi := asr r.val 8
  { tFine := tf.val, temp := divs centi 10, ovf := anyOvf [b, d, m1, e, ee, m2, tf, m3, r] }

/-- A temperature result, written (42_temperature.md R100; 30_encoding.md R63 step 7). -/
def commitTemp (r : TempResult) (s : State) : State :=
  { s with
    tFine := r.tFine
    temp := r.temp
    status := { s.status with tValid := true }
    errstat := s.errstat.note r.ovf false }

/-- COMP_T past its sequence check (42_temperature.md R100). -/
def tempBody (s : State) : State := commitTemp (compensateTemp (zx (rawT s.win)) s.coef) s

/-- COMP_T (42_temperature.md R100). -/
def execCompT (s : State) : Host.Outcome State Fault Refusal := ifCalibrated s tempBody

end Sys2Proof.Machine
end

