-- ==== Sys2Proof/Machine/System.lean ====
section
/-! DEFINITION. NOP, SAMPLE and RESET (45_system.md). -/

namespace Sys2Proof.Machine

/-- NOP (45_system.md R130): no change, in every state. -/
def execNop (s : State) : Host.Outcome State Fault Refusal := .next s

/-- SAMPLE past its sequence check (45_system.md R131): the three bodies in order, the later two reading the `T_FINE` the
first wrote. The zero guard ends the pressure part alone. -/
def sampleBody (s : State) : State := humBody (pressBody (tempBody s))

/-- SAMPLE (45_system.md R131). -/
def execSample (s : State) : Host.Outcome State Fault Refusal := ifCalibrated s sampleBody

/-- RESET (45_system.md R132), accepted in every state. -/
def execReset (s : State) : Host.Outcome State Fault Refusal := .next (toReset s)

end Sys2Proof.Machine
end

