-- ==== Sys2Proof/Machine/Dispatch.lean ====
section
/-! DEFINITION. Which meaning each command has: one arm per constructor of Instr. -/

namespace Sys2Proof.Machine

/-- One command, executed (30_encoding.md R61, R63). -/
def exec (i : Instr) (s : State) : Host.Outcome State Fault Refusal :=
  match i with
  | .nop => Sys2Proof.Machine.execNop s
  | .decode => Sys2Proof.Machine.execDecode s
  | .encode => Sys2Proof.Machine.execEncode s
  | .compT => Sys2Proof.Machine.execCompT s
  | .compP => Sys2Proof.Machine.execCompP s
  | .compH => Sys2Proof.Machine.execCompH s
  | .sample => Sys2Proof.Machine.execSample s
  | .reset => Sys2Proof.Machine.execReset s

end Sys2Proof.Machine
end

