-- ==== Sys2Proof/Machine/Transact.lean ====
section
/-! DEFINITION. The host's transactions (20_memory.md R40, R43, R44): what a write and a read of each address do, and
performing the oldest transaction of those pending. -/

namespace Sys2Proof.Machine

/-- A write of `d` to CMD (30_encoding.md R63): a defined byte's command, or ERR_CMD (R62). -/
def command (d : Byte) (s : State) : Host.Outcome State Fault Refusal :=
  match decode d with
  | .ok i => exec i s
  | .error _ => .next (raise .errCmd s)

/-- `Write(a, d)` (20_memory.md R43). -/
def hostWrite (a d : Byte) (s : State) : Host.Outcome State Fault Refusal :=
  match place a.toNat with
  | .cmd => command d s
  | .calw | .raww => .next { s with win := Memory.write s.win a.toNat d }
  | .status | .errstat | .tFine _ | .temp _ | .press _ | .hum _ | .coef _ _ | .reserved => .next (raise .errAddr s)

/-- What `Read(a)` answers (20_memory.md R44); a reserved address answers 0x00. -/
def readAnswer (a : Byte) (s : State) : Byte :=
  match place a.toNat with
  | .cmd => 0x00#8
  | .status => s.status.byte
  | .errstat => s.errstat.byte
  | .tFine j => byteOf s.tFine j
  | .temp j => byteOf s.temp j
  | .press j => byteOf s.press j
  | .hum j => byteOf s.hum j
  | .coef i j => byteOf (coefWord s.h6Signed s.coef i) j
  | .calw | .raww => Memory.read s.win a.toNat
  | .reserved => 0x00#8

/-- What `Read(a)` changes (20_memory.md R44): a reserved address raises ERR_ADDR; nothing else has an effect. -/
def readEffect (a : Byte) (s : State) : State :=
  match place a.toNat with
  | .reserved => raise .errAddr s
  | .cmd | .status | .errstat | .tFine _ | .temp _ | .press _ | .hum _ | .coef _ _ | .calw | .raww => s

/-- `Read(a)`: the answer is taken from the state before the read's effect (20_memory.md R44, "the value before this
read"). -/
def hostRead (a : Byte) (s : State) : State :=
  { readEffect a s with reply := some (readAnswer a s) }

/-- One transaction, performed as one atomic step (20_memory.md R40, R48). -/
def perform (t : Transaction) (s : State) : Host.Outcome State Fault Refusal :=
  match t with
  | .reset => .next (toReset s)
  | .write a d => hostWrite a d s
  | .read a => .next (hostRead a s)

/-- The oldest pending transaction, performed (20_memory.md R50): it leaves the queue, and the answer becomes its own,
none unless it is a read. With none pending the block does nothing: it never starts a transaction (R40)
(DESIGN CHOICE, log entries 1, 2; safe). -/
def performNext (s : State) : Host.Outcome State Fault Refusal :=
  match s.pending with
  | [] => .next s
  | t :: rest => perform t { s with pending := rest, reply := none }

/-- The host's write of a command byte, ahead of whatever else it has pending. -/
def withCommandNext (s : State) (d : Byte) : State := { s with pending := .write 0x00#8 d :: s.pending }

end Sys2Proof.Machine
end

