-- ==== Sys2Proof/Machine/Step.lean ====
section
/-! DEFINITION. The step of the machine: the host's next transaction (20_memory.md R40). -/

namespace Sys2Proof.Machine

/-- One step: the oldest pending transaction of the host's, whole. -/
def step (s : State) : Host.Outcome State Fault Refusal := performNext s

/-- `s` with the host about to write the instruction whose bits are `w` to CMD. The block fetches nothing
(10_state.md R22): this write is how an instruction comes to it (log entry 4). -/
def State.withFetchWord (s : State) (nbits w : Nat) : State :=
  withCommandNext s (BitVec.ofNat 8 (tableWord nbits w))

end Sys2Proof.Machine
end

