-- ==== Sys2Proof/Safety.lean ====
section
/-! DEFINITION. What the claims are stated in: the invariant of the machine, and the spec's own formulas over the integers
(`Ref`), written from the rules and not from the machine. In `Ref`, `/` is the floor (`floor(a / 2^k)`, 40_arithmetic.md R75,
R78) and a formula takes its wrap functions as arguments: with `Ref.wrapS` and `Ref.wrapU` it is the block's, with `id` it is
the formula over the unbounded integers (40_arithmetic.md R83). -/

namespace Sys2Proof

open Sys2Proof.Machine

/-- `wrapS` (40_arithmetic.md R70). -/
def Ref.wrapS (z : Int) : Int := (z + 2147483648) % 4294967296 - 2147483648

/-- `wrapU` (40_arithmetic.md R70). -/
def Ref.wrapU (z : Int) : Int := z % 4294967296

/-- `z` is an S32 (40_arithmetic.md R70). -/
def Ref.inS (z : Int) : Bool := decide (-2147483648 ≤ z ∧ z ≤ 2147483647)

/-- `z` is a U32 (40_arithmetic.md R70). -/
def Ref.inU (z : Int) : Bool := decide (0 ≤ z ∧ z ≤ 4294967295)

/-- `sext_N(v)` of an unsigned field `v` of `n` bits (00_scope.md R8). -/
def Ref.sext (n : Nat) (v : Int) : Int := if v < 2 ^ (n - 1) then v else v - 2 ^ n

/-- The window byte `W[a]` as a number. -/
def Ref.W (s : State) (a : Nat) : Int := ((Memory.read s.win a).toNat : Int)

/-- The coefficient `x[i]` as the integer of its type (10_state.md R12). -/
def Ref.x (s : State) (i : Nat) : Int :=
  match i with
  | 0 => (s.coef.t1.toNat : Int)
  | 1 => s.coef.t2.toInt
  | 2 => s.coef.t3.toInt
  | 3 => (s.coef.p1.toNat : Int)
  | 4 => s.coef.p2.toInt
  | 5 => s.coef.p3.toInt
  | 6 => s.coef.p4.toInt
  | 7 => s.coef.p5.toInt
  | 8 => s.coef.p6.toInt
  | 9 => s.coef.p7.toInt
  | 10 => s.coef.p8.toInt
  | 11 => s.coef.p9.toInt
  | 12 => (s.coef.h1.toNat : Int)
  | 13 => s.coef.h2.toInt
  | 14 => (s.coef.h3.toNat : Int)
  | 15 => s.coef.h4.toInt
  | 16 => s.coef.h5.toInt
  | 17 => if s.h6Signed then s.coef.h6.toInt else (s.coef.h6.toNat : Int)
  | _ => 0

/-- `rawT` (10_state.md R14). -/
def Ref.rawT (s : State) : Int := Ref.W s 0xFA * 4096 + Ref.W s 0xFB * 16 + Ref.W s 0xFC / 16

/-- `rawP` (10_state.md R15). -/
def Ref.rawP (s : State) : Int := Ref.W s 0xF7 * 4096 + Ref.W s 0xF8 * 16 + Ref.W s 0xF9 / 16

/-- `rawH` (10_state.md R16). -/
def Ref.rawH (s : State) : Int := Ref.W s 0xFD * 256 + Ref.W s 0xFE

/-- Some exact result does not fit its type (40_arithmetic.md R83). -/
def Ref.overflowed (signed unsigned : List Int) : Bool := !(signed.all Ref.inS && unsigned.all Ref.inU)

/-- The temperature formula's outcome (42_temperature.md R100) and the exact results it is made of. -/
structure Ref.Temp where
  tFine : Int
  /-- The exact results that can fail to fit (42_temperature.md R101). -/
  signed : List Int

/-- The temperature formula with `w` for `wrapS`. -/
def Ref.temp (w : Int → Int) (x : Nat → Int) (raw : Int) : Ref.Temp :=
  let product := (raw / 8 - x 0 * 2) * x 1
  let e := raw / 16 - x 0
  let square := e * e
  let scaled := w square / 4096 * x 2
  { tFine := w product / 2048 + w scaled / 16384, signed := [product, square, scaled] }

/-- Tenths of a degree from `t_fine`: `(t_fine * 5 + 128) >> 8`, then `/ 10` toward zero (42_temperature.md R100). -/
def Ref.tenths (tFine : Int) : Int := ((tFine * 5 + 128) / 256).tdiv 10

/-- A stage of the pressure formula: its value, and the exact results it is made of, by the type each must fit. -/
structure Ref.Stage where
  value : Int
  signed : List Int
  unsigned : List Int

/-- `v1` at the start of the first stage (43_pressure.md R110): `(t_fine >> 1) - 64000`. -/
def Ref.pressV (w : Int → Int) (tf : Int) : Int := w (tf / 2 - 64000)

/-- `sq` of the first stage (43_pressure.md R110): `(v1>>2) * (v1>>2)`. -/
def Ref.pressSq (w : Int → Int) (tf : Int) : Int := w (Ref.pressV w tf / 4 * (Ref.pressV w tf / 4))

/-- `v2` of the first stage (43_pressure.md R110). -/
def Ref.pressV2 (w : Int → Int) (x : Nat → Int) (tf : Int) : Ref.Stage :=
  let v := Ref.pressV w tf
  let e1 := Ref.pressSq w tf / 2048 * x 8
  let e2 := v * x 7
  let e3 := w e2 * 2
  let e4 := w e1 + w e3
  let e5 := x 6 * 65536
  let e6 := w e4 / 4 + w e5
  { value := w e6, signed := [e1, e2, e3, e4, e5, e6], unsigned := [] }

/-- The first-stage denominator (43_pressure.md R110). -/
def Ref.pressDenominator (w : Int → Int) (x : Nat → Int) (tf : Int) : Ref.Stage :=
  let v := Ref.pressV w tf
  let e1 := x 5 * (Ref.pressSq w tf / 8192)
  let e2 := x 4 * v
  let e3 := w e1 / 8 + w e2 / 2
  let e4 := 32768 + w e3 / 262144
  let e5 := w e4 * x 3
  { value := w e5 / 32768, signed := [e1, e2, e3, e4, e5], unsigned := [] }

/-- The scaled pressure accumulator (43_pressure.md R110), with `u` for `wrapU`. -/
def Ref.pressAccumulator (w u : Int → Int) (raw v2 : Int) : Ref.Stage :=
  let e1 := 1048576 - raw
  let e2 := w e1 - v2 / 4096
  let e3 := u (w e2) * 3125
  { value := u e3, signed := [e1, e2], unsigned := [w e2, e3] }

/-- The two finishing formulas, chosen at 2^31 (43_pressure.md R110). -/
def Ref.pressFinish (u : Int → Int) (p dv : Int) : Ref.Stage :=
  if p < 2147483648 then { value := u (p * 2) / dv, signed := [], unsigned := [p * 2] }
  else { value := u (p / dv * 2), signed := [], unsigned := [p / dv * 2] }

/-- The second stage, to pascal (43_pressure.md R110). -/
def Ref.pascal (w u : Int → Int) (x : Nat → Int) (q : Int) : Ref.Stage :=
  let e1 := q / 8 * (q / 8)
  let c := u e1 / 8192
  let e2 := x 11 * w c
  let e3 := w (q / 4) * x 10
  let e4 := w e2 / 4096 + w e3 / 8192
  let e5 := w e4 + x 9
  let e6 := w q + w e5 / 16
  { value := u (w e6), signed := [c, e2, q / 4, e3, e4, e5, q, e6], unsigned := [e1, w e6] }

/-- The pressure formula's outcome (43_pressure.md R110) and the exact results it is made of. -/
structure Ref.Press where
  denominator : Int
  press : Int
  signed : List Int
  unsigned : List Int

/-- The pressure formula (43_pressure.md R110), its guard included, with `w` for `wrapS` and `u` for `wrapU`. -/
def Ref.press (w u : Int → Int) (x : Nat → Int) (raw tf : Int) : Ref.Press :=
  let v2 := Ref.pressV2 w x tf
  let v1 := Ref.pressDenominator w x tf
  let first := [tf / 2 - 64000, Ref.pressV w tf / 4 * (Ref.pressV w tf / 4)] ++ v2.signed ++ v1.signed
  if v1.value = 0 then { denominator := 0, press := 0, signed := first, unsigned := [] }
  else
    let p := Ref.pressAccumulator w u raw v2.value
    let q := Ref.pressFinish u p.value (u v1.value)
    let pa := Ref.pascal w u x q.value
    { denominator := v1.value
      press := pa.value / 100
      signed := first ++ p.signed ++ pa.signed
      unsigned := p.unsigned ++ v1.value :: q.unsigned ++ pa.unsigned }

/-- The humidity formula's outcome (44_humidity.md R120) and the exact results it is made of. -/
structure Ref.Hum where
  hum : Int
  signed : List Int

/-- The humidity formula (44_humidity.md R120) with `w` for `wrapS`. -/
def Ref.hum (w : Int → Int) (x : Nat → Int) (raw tf : Int) : Ref.Hum :=
  let e1 := tf - 76800
  let y := w e1
  let e2 := raw * 16384
  let e3 := x 15 * 1048576
  let e4 := w e2 - w e3
  let e5 := x 16 * y
  let e6 := w e4 - w e5
  let e7 := w e6 + 16384
  let a := w e7 / 32768
  let e8 := y * x 17
  let e9 := y * x 14
  let e10 := w e9 / 2048 + 32768
  let e11 := w e8 / 1024 * w e10
  let e12 := w e11 / 1024 + 2097152
  let e13 := w e12 * x 13
  let e14 := w e13 + 8192
  let b := w e14 / 16384
  let e15 := a * b
  let v := w e15
  let e16 := (v / 32768) * (v / 32768)
  let e17 := w e16 / 128 * x 12
  let e18 := v - w e17 / 16
  let clamped := min (max (w e18) 0) 419430400
  { hum := clamped / 4194304
    signed := [e1, e2, e3, e4, e5, e6, e7, e8, e9, e10, e11, e12, e13, e14, e15, e16, e17, e18] }

/-- Addresses that hold nothing (20_memory.md R42: the rows called reserved). -/
abbrev Ref.reserved (a : Nat) : Prop :=
  a = 0x03 ∨ (0x14 ≤ a ∧ a ≤ 0x1F) ∨ (0x44 ≤ a ∧ a ≤ 0x87) ∨ a = 0xA0 ∨ (0xA2 ≤ a ∧ a ≤ 0xE0) ∨
    (0xE8 ≤ a ∧ a ≤ 0xF6) ∨ a = 0xFF

/-- The calibration window (10_state.md R11). -/
abbrev Ref.calw (a : Nat) : Prop := (0x88 ≤ a ∧ a ≤ 0x9F) ∨ a = 0xA1 ∨ (0xE1 ≤ a ∧ a ≤ 0xE7)

/-- The data window (10_state.md R11). -/
abbrev Ref.raww (a : Nat) : Prop := 0xF7 ≤ a ∧ a ≤ 0xFE

/-- The one refusal that applies to a transaction, in the order of 60_exceptions.md R148: the address, then the command byte,
then the sequence. -/
def Ref.refusal (s : State) : Transaction → Option RefusalFlag
  | .reset => none
  | .read a => if Ref.reserved a.toNat then some .errAddr else none
  | .write a d =>
    if a.toNat ≠ 0 ∧ ¬ Ref.calw a.toNat ∧ ¬ Ref.raww a.toNat then some .errAddr
    else if a.toNat ≠ 0 then none
    else if 0x08 ≤ d.toNat then some .errCmd
    else if d.toNat = 0x01 ∧ s.status.calValid = true then some .errSeq
    else if 0x02 ≤ d.toNat ∧ d.toNat ≤ 0x06 ∧ s.status.calValid = false then some .errSeq
    else none

/-- The transactions that put the block into its reset state: `Reset`, and the write of RESET to CMD
(70_reset_and_hazards.md R160, R162). -/
abbrev Ref.resets (t : Transaction) : Prop := t = .reset ∨ t = .write 0x00#8 0x07#8

/-- The state a transaction acts on: it has left the queue, and nothing is answered yet. -/
def Ref.popped (s : State) (rest : List Transaction) : State := { s with pending := rest, reply := none }

/-- `t` is where `k` steps from `s` end, each of them answering a next state. -/
def Ref.stepsTo : Nat → State → State → Prop
  | 0, s, t => s = t
  | k + 1, s, t => ∃ u, step s = .next u ∧ Ref.stepsTo k u t

/-- What holds of the block at reset and after every step. Each field names the rules it comes from. -/
structure Machine.State.Inv (s : State) : Prop where
  /-- The window keeps its canonical form and holds window addresses only (10_state.md R11, 20_memory.md R49). -/
  winWf : Memory.wf s.win
  /-- Before a DECODE nothing has been computed (10_state.md R12, 30_encoding.md R63). -/
  uncalibrated : s.status.calValid = false →
    s.coef = Coefs.reset ∧ s.status.tValid = false ∧ s.status.pValid = false ∧ s.status.hValid = false
  /-- A result whose valid flag is 0 reads 0 (10_state.md R27). -/
  noTemp : s.status.tValid = false → s.tFine = 0 ∧ s.temp = 0
  /-- As `noTemp`, of the pressure; the guard flag belongs to a pressure result (10_state.md R23). -/
  noPress : s.status.pValid = false → s.press = 0 ∧ s.status.pGuard = false
  /-- As `noTemp`, of the humidity. -/
  noHum : s.status.hValid = false → s.hum = 0
  /-- The guard's result is the sentinel 0 (43_pressure.md R110). -/
  guardZero : s.status.pGuard = true → s.press = 0
  /-- `T_FINE` is in the range of 42_temperature.md R101. -/
  tFineRange : -1179648 ≤ s.tFine.toInt ∧ s.tFine.toInt ≤ 1179646
  /-- `TEMP` belongs to `T_FINE` (42_temperature.md R100). -/
  tempOfTFine : s.temp.toInt = Ref.tenths s.tFine.toInt
  /-- `PRESS` is a U32 divided by 100 (43_pressure.md R110). -/
  pressRange : s.press.toNat ≤ 42949672
  /-- `HUM` is a percentage (44_humidity.md R121). -/
  humRange : s.hum.toNat ≤ 100
  /-- An overflow was some computation's (60_exceptions.md R145). -/
  ovfCause : s.errstat.ovf = true → s.status.tValid = true ∨ s.status.pValid = true ∨ s.status.hValid = true
  /-- A missing temperature was noted by a computation (60_exceptions.md R146). -/
  orderCause : s.errstat.order = true → s.status.pValid = true ∨ s.status.hValid = true

end Sys2Proof
end

