-- ==== Sys2Proof/Certificates/Slice0/Obligations.lean ====
section
/-! DEFINITION. The statements for the provers, from the spec's numbered rules in the order of its files. A next state is
written `t = { s with … }`: every field not named, the window's bytes among them, is as it was. `Ref` (Safety.lean) holds the
spec's formulas over the integers. -/

open Sys2Proof Sys2Proof.Machine

/-! ### The host interface and the address map -/

/-- 20_memory.md R43, all three of its cases, and 30_encoding.md R62 at CMD. A window write changes that byte and nothing else;
a command byte runs its command, a reserved one sets ERR_CMD alone; every other address refuses, its data discarded. -/
def Obligations.WriteGoesByTheMap : Prop :=
  ∀ (s : State) (a d : Byte) (rest : List Transaction), s.pending = .write a d :: rest → Memory.wf s.win →
    ((Ref.calw a.toNat ∨ Ref.raww a.toNat) →
      ∃ t, step s = .next t ∧ t = { Ref.popped s rest with win := t.win } ∧
        Memory.read t.win a.toNat = d ∧ (∀ b : Nat, b ≠ a.toNat → Memory.read t.win b = Memory.read s.win b) ∧
        Memory.wf t.win) ∧
    (a.toNat ≠ 0 → ¬ (Ref.calw a.toNat ∨ Ref.raww a.toNat) →
      step s = .next { Ref.popped s rest with errstat := { s.errstat with errAddr := true } }) ∧
    (∀ i, a.toNat = 0 → decode d = .ok i → step s = exec i (Ref.popped s rest)) ∧
    (a.toNat = 0 → 8 ≤ d.toNat →
      step s = .next { Ref.popped s rest with errstat := { s.errstat with errCmd := true } })

/-- 20_memory.md R44, every row of it. A byte of a register is `(register mod 2^32)[8j+7 : 8j]`, written here as the quotient by
`256^j` modulo 256 (`BitVec.ofInt 8` keeps the low 8 bits). The bits of STATUS and ERRSTAT are those of 10_state.md R23, R24.
Only a reserved address changes anything. -/
def Obligations.ReadAnswersByTheMap : Prop :=
  ∀ (s : State) (a : Byte) (rest : List Transaction), s.pending = .read a :: rest →
    let n := a.toNat
    let answers (v : Int) : Prop := step s = .next { Ref.popped s rest with reply := some (BitVec.ofInt 8 v) }
    (n = 0x00 → answers 0) ∧
    (n = 0x01 → answers (s.status.calValid.toNat + 2 * s.status.tValid.toNat + 4 * s.status.pValid.toNat
      + 8 * s.status.hValid.toNat + 16 * s.status.pGuard.toNat : Nat)) ∧
    (n = 0x02 → answers (s.errstat.ovf.toNat + 2 * s.errstat.order.toNat + 4 * s.errstat.errCmd.toNat
      + 8 * s.errstat.errSeq.toNat + 16 * s.errstat.errAddr.toNat : Nat)) ∧
    (0x04 ≤ n → n ≤ 0x07 → answers (Ref.wrapU s.tFine.toInt / 256 ^ (n - 0x04))) ∧
    (0x08 ≤ n → n ≤ 0x0B → answers (Ref.wrapU s.temp.toInt / 256 ^ (n - 0x08))) ∧
    (0x0C ≤ n → n ≤ 0x0F → answers (s.press.toNat / 256 ^ (n - 0x0C))) ∧
    (0x10 ≤ n → n ≤ 0x13 → answers (s.hum.toNat / 256 ^ (n - 0x10))) ∧
    (0x20 ≤ n → n ≤ 0x43 → answers (Ref.x s ((n - 0x20) / 2) % 65536 / 256 ^ ((n - 0x20) % 2))) ∧
    (Ref.calw n ∨ Ref.raww n → answers (Ref.W s n)) ∧
    (Ref.reserved n →
      step s = .next { Ref.popped s rest with reply := some 0, errstat := { s.errstat with errAddr := true } })

/-- 20_memory.md R45: four reads at rising addresses give a 32-bit register, least significant byte first, and two give a
word of COEF_RB; a signed register is the `sext` of what they combine to. The reads are four (two) steps, and between them
the register cannot change. -/
def Obligations.RegistersReadLittleEndian : Prop :=
  (∀ (s : State) (a : Byte) (v : BitVec 32) (rest : List Transaction),
    (a = 0x04#8 ∧ v = s.tFine ∨ a = 0x08#8 ∧ v = s.temp ∨ a = 0x0C#8 ∧ v = s.press ∨ a = 0x10#8 ∧ v = s.hum) →
    s.pending = .read a :: .read (a + 1) :: .read (a + 2) :: .read (a + 3) :: rest →
    ∃ t0 t1 t2 t3 b0 b1 b2 b3,
      step s = .next t0 ∧ step t0 = .next t1 ∧ step t1 = .next t2 ∧ step t2 = .next t3 ∧
      t0.reply = some b0 ∧ t1.reply = some b1 ∧ t2.reply = some b2 ∧ t3.reply = some b3 ∧
      b0.toNat + b1.toNat * 256 + b2.toNat * 256 ^ 2 + b3.toNat * 256 ^ 3 = v.toNat ∧
      Ref.sext 32 (b0.toNat + b1.toNat * 256 + b2.toNat * 256 ^ 2 + b3.toNat * 256 ^ 3) = v.toInt) ∧
  (∀ (s : State) (i : Nat) (rest : List Transaction), i < 18 →
    s.pending = .read (BitVec.ofNat 8 (0x20 + 2 * i)) :: .read (BitVec.ofNat 8 (0x21 + 2 * i)) :: rest →
    ∃ t0 t1 b0 b1, step s = .next t0 ∧ step t0 = .next t1 ∧ t0.reply = some b0 ∧ t1.reply = some b1 ∧
      ((b0.toNat + b1.toNat * 256 : Nat) : Int) = Ref.x s i % 65536 ∧
      (Ref.x s i < 32768 → Ref.sext 16 (b0.toNat + b1.toNat * 256) = Ref.x s i))

/-- 10_state.md R13: the word of COEF_RB for coefficient `i` is `x[i] mod 2^16`, low byte at `0x20 + 2*i`, and a host write to
either byte is refused, the coefficient file unchanged. -/
def Obligations.CoefficientImageIsTyped : Prop :=
  ∀ (s : State) (i : Nat), i < 18 →
    (readAnswer (BitVec.ofNat 8 (0x20 + 2 * i)) s).toNat = Ref.x s i % 65536 % 256 ∧
    (readAnswer (BitVec.ofNat 8 (0x21 + 2 * i)) s).toNat = Ref.x s i % 65536 / 256 ∧
    ∀ d : Byte,
      hostWrite (BitVec.ofNat 8 (0x20 + 2 * i)) d s = .next { s with errstat := { s.errstat with errAddr := true } } ∧
      hostWrite (BitVec.ofNat 8 (0x21 + 2 * i)) d s = .next { s with errstat := { s.errstat with errAddr := true } }

/-- 10_state.md R14, R15, R16: the raw samples are the stated functions of window bytes, most significant byte first, and the
low four bits of the third byte do not enter. -/
def Obligations.RawSamplesAreAssembled : Prop :=
  ∀ s : State,
    ((rawT s.win).toNat : Int) = Ref.W s 0xFA * 4096 + Ref.W s 0xFB * 16 + Ref.W s 0xFC / 16 ∧
    ((rawP s.win).toNat : Int) = Ref.W s 0xF7 * 4096 + Ref.W s 0xF8 * 16 + Ref.W s 0xF9 / 16 ∧
    ((rawH s.win).toNat : Int) = Ref.W s 0xFD * 256 + Ref.W s 0xFE ∧
    (rawT s.win).toNat ≤ 1048575 ∧ (rawP s.win).toNat ≤ 1048575 ∧ (rawH s.win).toNat ≤ 65535

/-- 20_memory.md R49: what is written to a reserved address is not read back. The write and the read are two steps; the
read answers 0 and no state but ERR_ADDR is changed by either. -/
def Obligations.ReservedAddressesHoldNothing : Prop :=
  ∀ (s : State) (a d : Byte) (rest : List Transaction), Ref.reserved a.toNat →
    s.pending = .write a d :: .read a :: rest →
    ∃ t1 t2, step s = .next t1 ∧ step t1 = .next t2 ∧
      t2 = { s with pending := rest, reply := some 0, errstat := { s.errstat with errAddr := true } }

/-! ### The command encoding and the execution model -/

/-- 30_encoding.md R60, R61: a byte is a command exactly when its bits 7:3 are 0, that is up to 0x07, and each of the eight
words, written out bit by bit, is the command of its row. -/
def Obligations.CommandBytesDecode : Prop :=
  (∀ d : Byte, ((∃ i, decode d = .ok i) ↔ d.extractLsb' 3 5 = 0#5) ∧ ((∃ i, decode d = .ok i) ↔ d.toNat ≤ 0x07)) ∧
  decode 0b00000000#8 = .ok .nop ∧ decode 0b00000001#8 = .ok .decode ∧ decode 0b00000010#8 = .ok .encode ∧
  decode 0b00000011#8 = .ok .compT ∧ decode 0b00000100#8 = .ok .compP ∧ decode 0b00000101#8 = .ok .compH ∧
  decode 0b00000110#8 = .ok .sample ∧ decode 0b00000111#8 = .ok .reset

/-- Decoding and encoding agree, both ways: a command's byte decodes to it, and a byte that decodes to a command is its byte. -/
def Obligations.DecodeInvertsEncode : Prop :=
  (∀ i : Instr, decode (encode i) = .ok i) ∧ ∀ (d : Byte) (i : Instr), decode d = .ok i → encode i = d

/-- A step runs the decoded command: a pending write to CMD of a byte that decodes to `i` makes the step be `exec i`, on the
state whose queue it has left and that has no answer yet. -/
def Obligations.StepRunsTheDecodedCommand : Prop :=
  ∀ (s : State) (d : Byte) (i : Instr) (rest : List Transaction),
    s.pending = .write 0x00#8 d :: rest → decode d = .ok i →
    step s = exec i { s with pending := rest, reply := none }

/-- What `withFetchWord` places is what the next step runs, the host's other transactions left waiting (the model's own
convention, log entry 4: the block fetches nothing, 10_state.md "The block has no program counter and fetches no
instructions"). -/
def Obligations.PlacedWordRunsNext : Prop :=
  ∀ (s : State) (w : Nat) (i : Instr), decodeTableWord 8 w = some i →
    step (s.withFetchWord 8 w) = exec i { s with reply := none }

/-- "Every transaction completes" (70_reset_and_hazards.md, section 4): in every state a step answers a next state, the
transaction it performed and no other has left the queue, and with none pending nothing changes (that the block then idles is
the model's choice, log entry 1). -/
def Obligations.EveryTransactionCompletes : Prop :=
  ∀ s : State, ∃ t, step s = .next t ∧ t.pending = s.pending.tail ∧ (s.pending = [] → t = s) ∧
    (∀ a rest, s.pending = .read a :: rest → t.reply.isSome = true) ∧
    (∀ a d rest, s.pending = .write a d :: rest → t.reply = none)

/-- 45_system.md R130: NOP, byte 0x00, changes nothing, in every state. -/
def Obligations.NopChangesNothing : Prop :=
  decode 0x00#8 = .ok .nop ∧ ∀ s : State, exec .nop s = .next s

/-! ### Arithmetic -/

/-- 40_arithmetic.md R71, R72, R73: sum, product and difference of two S32. Of the product also R72's own words: the low 32
bits of the exact 64-bit signed product, and `ovf` exactly when bits 63:31 of it are not all equal. -/
def Obligations.SignedArithmeticWraps : Prop :=
  ∀ a b : S32,
    (adds a b).val.toInt = Ref.wrapS (a.toInt + b.toInt) ∧
    ((adds a b).ovf = true ↔ ¬ (-(2 ^ 31) ≤ a.toInt + b.toInt ∧ a.toInt + b.toInt ≤ 2 ^ 31 - 1)) ∧
    (subs a b).val.toInt = Ref.wrapS (a.toInt - b.toInt) ∧
    ((subs a b).ovf = true ↔ ¬ (-(2 ^ 31) ≤ a.toInt - b.toInt ∧ a.toInt - b.toInt ≤ 2 ^ 31 - 1)) ∧
    (muls a b).val.toInt = Ref.wrapS (a.toInt * b.toInt) ∧
    ((muls a b).ovf = true ↔ ¬ (-(2 ^ 31) ≤ a.toInt * b.toInt ∧ a.toInt * b.toInt ≤ 2 ^ 31 - 1)) ∧
    (let product : BitVec 64 := a.signExtend 64 * b.signExtend 64
     product.toInt = a.toInt * b.toInt ∧
     (muls a b).val = product.extractLsb' 0 32 ∧
     ((muls a b).ovf = true ↔ ¬ (product.extractLsb' 31 33 = 0#33 ∨ product.extractLsb' 31 33 = BitVec.allOnes 33)))

/-- 40_arithmetic.md R74, R75, R82: the left shift, the arithmetic right shift that floors, the quotient truncated toward
zero. -/
def Obligations.SignedShiftsAndQuotient : Prop :=
  (∀ (a : S32) (k : Nat), k ≤ 31 →
    (shls a k).val.toInt = Ref.wrapS (a.toInt * 2 ^ k) ∧
    (shls a k).val = a <<< k ∧
    ((shls a k).ovf = true ↔ ¬ (-(2 ^ 31) ≤ a.toInt * 2 ^ k ∧ a.toInt * 2 ^ k ≤ 2 ^ 31 - 1)) ∧
    (asr a k).toInt = a.toInt / 2 ^ k ∧
    asr a k = a.sshiftRight k) ∧
  (∀ (a : S32) (b : Nat), 0 < b →
    (0 ≤ a.toInt → (divs a b).toInt = a.toInt / b) ∧ (a.toInt < 0 → (divs a b).toInt = -((-a.toInt) / b)))

/-- 40_arithmetic.md R76, R77, R78: the unsigned product and shifts; and the value R79 gives the quotient by a divisor that is
not 0 (that COMP_P meets no other is in `ZeroGuardPreventsDivision`). -/
def Obligations.UnsignedArithmeticWraps : Prop :=
  ∀ a b : U32,
    (mulu a b).val.toNat = a.toNat * b.toNat % 2 ^ 32 ∧
    ((mulu a b).ovf = true ↔ 2 ^ 32 ≤ a.toNat * b.toNat) ∧
    (∀ k : Nat, k ≤ 31 →
      (shlu a k).val.toNat = a.toNat * 2 ^ k % 2 ^ 32 ∧
      ((shlu a k).ovf = true ↔ 2 ^ 32 ≤ a.toNat * 2 ^ k) ∧
      (lsr a k).toNat = a.toNat / 2 ^ k ∧
      (a.toNat < 2 ^ 31 → lsr a k = asr a k)) ∧
    (b.toNat ≠ 0 → (divu a b).toNat = a.toNat / b.toNat)

/-- 40_arithmetic.md R80, R81: the conversions keep the 32 bits and report a value that the other type does not hold. -/
def Obligations.ConversionsKeepTheBits : Prop :=
  ∀ a : BitVec 32,
    (s2u a).val = a ∧ ((s2u a).val.toNat : Int) = Ref.wrapU a.toInt ∧ ((s2u a).ovf = true ↔ a.toInt < 0) ∧
    (u2s a).val = a ∧ (u2s a).val.toInt = Ref.wrapS a.toNat ∧ ((u2s a).ovf = true ↔ 2 ^ 31 ≤ a.toNat)

/-- The laws of 40_arithmetic.md section 6, which the spec derives from its definitions ("Laws that follow from the
definitions"). -/
def Obligations.ArithmeticLaws : Prop :=
  (∀ a b : S32, -32768 ≤ a.toInt → a.toInt ≤ 32767 → -32768 ≤ b.toInt → b.toInt ≤ 32767 →
    (muls a b).val.toInt = a.toInt * b.toInt ∧ (muls a b).ovf = false ∧
    -(2 ^ 30) ≤ a.toInt * b.toInt ∧ a.toInt * b.toInt ≤ 2 ^ 30) ∧
  (∀ a b : S32, muls a b = muls b a ∧ adds a b = adds b a) ∧
  (∀ a : S32, muls a 0 = { val := 0, ovf := false } ∧ muls a 1 = { val := a, ovf := false } ∧
    adds a 0 = { val := a, ovf := false } ∧ asr a 0 = a) ∧
  (∀ (a : S32) (j k : Nat), j + k ≤ 31 → asr (asr a j) k = asr a (j + k)) ∧
  (∀ (a : S32) (k : Nat), k ≤ 31 →
    (asr a k).toInt * 2 ^ k ≤ a.toInt ∧ a.toInt < ((asr a k).toInt + 1) * 2 ^ k) ∧
  (∀ (a b : BitVec 32) (k : Nat), (muls a b).val = (mulu a b).val ∧ (shls a k).val = (shlu a k).val) ∧
  (∀ (a c : S32) (b : Nat), 0 < b → c.toInt = -a.toInt →
    (divs c b).toInt = -(divs a b).toInt ∧ |(divs a b).toInt * b| ≤ |a.toInt|)

/-! ### Calibration -/

/-- 41_calibration.md R90: DECODE, byte 0x01. Refused when the coefficient file is populated; otherwise every coefficient is
decoded from its window bytes, whatever they hold, as the integer of its type, CAL_VALID is set, and nothing else changes.
(The rows of R91 are stated by arithmetic on the bytes; where H2 to H6 stand inside the 0xE1 block is the spec's own
inference there, "follow from the order H2 to H6 and the sizes", and 10_state.md R12 lists the same bytes.) -/
def Obligations.DecodeReadsTheCalibration : Prop :=
  decode 0x01#8 = .ok .decode ∧
  ∀ s : State,
    (s.status.calValid = true →
      exec .decode s = .next { s with errstat := { s.errstat with errSeq := true } }) ∧
    (s.status.calValid = false →
      ∃ t, exec .decode s = .next t ∧
        t = { s with coef := t.coef, status := { s.status with calValid := true } } ∧
        (let W := Ref.W s
         let le16 := fun a => W a + 256 * W (a + 1)
         Ref.x t 0 = le16 0x88 ∧ Ref.x t 1 = Ref.sext 16 (le16 0x8A) ∧ Ref.x t 2 = Ref.sext 16 (le16 0x8C) ∧
         Ref.x t 3 = le16 0x8E ∧
         (∀ k, 2 ≤ k → k ≤ 9 → Ref.x t (2 + k) = Ref.sext 16 (le16 (0x8E + 2 * (k - 1)))) ∧
         Ref.x t 12 = W 0xA1 ∧ Ref.x t 13 = Ref.sext 16 (le16 0xE1) ∧ Ref.x t 14 = W 0xE3 ∧
         Ref.x t 15 = Ref.sext 12 (W 0xE4 * 16 + W 0xE5 % 16) ∧
         Ref.x t 16 = Ref.sext 12 (W 0xE6 * 16 + W 0xE5 / 16) ∧
         (s.h6Signed = false → Ref.x t 17 = W 0xE7) ∧ (s.h6Signed = true → Ref.x t 17 = Ref.sext 8 (W 0xE7))))

/-- 41_calibration.md section 2: ENCODE, byte 0x02. Refused when nothing has been decoded; otherwise the 32 calibration bytes
become the images of the coefficients (the spec derives where each bit goes from the decoding: "[derived: from rule R91]"),
and every other byte and every other piece of state is unchanged. The bytes are stated of a window in its canonical form,
which `StepKeepsTheInvariant` says every step keeps; that it completes, of every window. -/
def Obligations.EncodeWritesTheCalibration : Prop :=
  decode 0x02#8 = .ok .encode ∧
  ∀ s : State,
    (s.status.calValid = false →
      exec .encode s = .next { s with errstat := { s.errstat with errSeq := true } }) ∧
    (s.status.calValid = true →
      ∃ t, exec .encode s = .next t ∧ t = { s with win := t.win } ∧
        (Memory.wf s.win →
          Memory.wf t.win ∧
          (let W := Ref.W t
           let x := Ref.x s
           (∀ k, k < 12 →
             W (0x88 + 2 * k) = x k % 65536 % 256 ∧ W (0x89 + 2 * k) = x k % 65536 / 256) ∧
           W 0xA1 = x 12 ∧ W 0xE1 = x 13 % 65536 % 256 ∧ W 0xE2 = x 13 % 65536 / 256 ∧ W 0xE3 = x 14 ∧
           W 0xE4 = x 15 % 4096 / 16 ∧ W 0xE5 = x 16 % 4096 % 16 * 16 + x 15 % 4096 % 16 ∧
           W 0xE6 = x 16 % 4096 / 16 ∧ W 0xE7 = x 17 % 256) ∧
          ∀ a : Nat, ¬ Ref.calw a → Memory.read t.win a = Memory.read s.win a))

/-- The round-trip law (41_calibration.md section 3, which the spec derives): `dec` and `enc` are inverse to each other,
for the contents of the calibration bytes and for the coefficient files. `enc` writes each calibration byte once and no
other. -/
def Obligations.DecAndEncAreInverse : Prop :=
  (∀ (m : Memory) (c : Coefs), Memory.wf m → dec (Memory.writeAll m (enc c)) = c) ∧
  (∀ m : Memory, Memory.wf m → Memory.writeAll m (enc (dec m)) = m) ∧
  (∀ c : Coefs, ((enc c).map Prod.fst).Nodup ∧ ∀ a : Nat, a ∈ (enc c).map Prod.fst ↔ Ref.calw a)

/-- The round trip in machine terms (41_calibration.md section 3, derived there): DECODE, then any number of host writes to
calibration bytes, then ENCODE, leaves every calibration byte as it was before; and all of the run's steps complete. -/
def Obligations.EncodeRestoresDecodedBytes : Prop :=
  ∀ (s : State) (writes : List (Byte × Byte)) (rest : List Transaction),
    Memory.wf s.win → s.status.calValid = false → (∀ w ∈ writes, Ref.calw w.1.toNat) →
    s.pending = .write 0x00#8 0x01#8 :: (writes.map (fun w => Transaction.write w.1 w.2) ++
      (.write 0x00#8 0x02#8 :: rest)) →
    ∃ t, Ref.stepsTo (writes.length + 2) s t ∧ t.pending = rest ∧ t.errstat = s.errstat ∧
      t.coef = dec s.win ∧ ∀ a : Nat, Memory.read t.win a = Memory.read s.win a

/-! ### Temperature -/

/-- 42_temperature.md R100: COMP_T, byte 0x03. Refused without a calibration; otherwise `T_FINE` and `TEMP` are the formula's
over wrapped 32-bit integers, T_VALID is set, OVF is set if an exact result did not fit and is never cleared, and nothing
else changes. Only the three products can fail to fit, which is part of what is to be proved. -/
def Obligations.CompTFollowsTheFormula : Prop :=
  decode 0x03#8 = .ok .compT ∧
  ∀ s : State,
    (s.status.calValid = false →
      exec .compT s = .next { s with errstat := { s.errstat with errSeq := true } }) ∧
    (s.status.calValid = true →
      ∃ t, exec .compT s = .next t ∧
        (let r := Ref.temp Ref.wrapS (Ref.x s) (Ref.rawT s)
         t.tFine.toInt = r.tFine ∧ t.temp.toInt = Ref.tenths r.tFine ∧
         t = { s with
               tFine := t.tFine
               temp := t.temp
               status := { s.status with tValid := true }
               errstat := { s.errstat with ovf := s.errstat.ovf || Ref.overflowed r.signed [] } }))

/-- The bounds of 42_temperature.md (its corner cases, which the spec derives): after COMP_T from any calibrated state.
The last two clauses: a difference too large to square overflows, and
small enough differences overflow nothing. -/
def Obligations.TemperatureBounds : Prop :=
  ∀ s : State, s.status.calValid = true →
    ∃ t, exec .compT s = .next t ∧
      -1179648 ≤ t.tFine.toInt ∧ t.tFine.toInt ≤ 1179646 ∧
      -23040 ≤ (t.tFine.toInt * 5 + 128) / 256 ∧ (t.tFine.toInt * 5 + 128) / 256 ≤ 23040 ∧
      -2304 ≤ t.temp.toInt ∧ t.temp.toInt ≤ 2304 ∧
      (let d := Ref.rawT s / 8 - 2 * Ref.x s 0
       let e := Ref.rawT s / 16 - Ref.x s 0
       d ≤ 131071 ∧ -131070 ≤ d ∧ e ≤ 65535 ∧ -65535 ≤ e ∧
       (46341 ≤ |e| → t.errstat.ovf = true) ∧
       (s.errstat.ovf = false → |d| ≤ 65535 → |e| ≤ 16383 → t.errstat.ovf = false))

/-- 42_temperature.md R102: COMP_T is a pure function of the raw sample and T1, T2, T3. Two calibrated states that agree on
these, and may differ in everything else, get the same `T_FINE` and `TEMP`, and the one's COMP_T overflows exactly when the
other's does. The rule's worked example is the last clause. -/
def Obligations.TemperatureIsPure : Prop :=
  (∀ s s' : State, s.status.calValid = true → s'.status.calValid = true →
    Ref.rawT s = Ref.rawT s' → Ref.x s 0 = Ref.x s' 0 → Ref.x s 1 = Ref.x s' 1 → Ref.x s 2 = Ref.x s' 2 →
    ∃ t t', exec .compT s = .next t ∧ exec .compT s' = .next t' ∧ t.tFine = t'.tFine ∧ t.temp = t'.temp ∧
      (s.errstat.ovf = false → s'.errstat.ovf = false → t.errstat.ovf = t'.errstat.ovf)) ∧
  (∀ s : State, s.status.calValid = true → Ref.rawT s = 519888 → Ref.x s 0 = 27504 → Ref.x s 1 = 26435 →
    Ref.x s 2 = -1000 → ∃ t, exec .compT s = .next t ∧ t.temp.toInt = 250)

/-- 40_arithmetic.md section 5, the meaning the spec derives from R83: a COMP_T that leaves OVF at 0 has computed the formula
over the unbounded integers. -/
def Obligations.TemperatureExactWithoutOverflow : Prop :=
  ∀ s t : State, s.status.calValid = true → exec .compT s = .next t → t.errstat.ovf = false →
    t.tFine.toInt = (Ref.temp id (Ref.x s) (Ref.rawT s)).tFine ∧
    t.temp.toInt = Ref.tenths (Ref.temp id (Ref.x s) (Ref.rawT s)).tFine

/-! ### Pressure -/

/-- 43_pressure.md R110: COMP_P, byte 0x04. Refused without a calibration; otherwise `PRESS` is the formula's over wrapped
32-bit integers, P_VALID is set, P_GUARD says whether the zero guard was taken, OVF and ORDER are set when due and never
cleared, and nothing else changes. (The body of the formula is the rule's, which marks it as general knowledge,
93_implementation_defined.md G2.) -/
def Obligations.CompPFollowsTheFormula : Prop :=
  decode 0x04#8 = .ok .compP ∧
  ∀ s : State,
    (s.status.calValid = false →
      exec .compP s = .next { s with errstat := { s.errstat with errSeq := true } }) ∧
    (s.status.calValid = true →
      ∃ t, exec .compP s = .next t ∧
        (let r := Ref.press Ref.wrapS Ref.wrapU (Ref.x s) (Ref.rawP s) s.tFine.toInt
         (t.press.toNat : Int) = r.press ∧
         t = { s with
               press := t.press
               status := { s.status with pValid := true, pGuard := decide (r.denominator = 0) }
               errstat := { s.errstat with
                 ovf := s.errstat.ovf || Ref.overflowed r.signed r.unsigned
                 order := s.errstat.order || !s.status.tValid } }))

/-- The zero guard (43_pressure.md, its rule on the guard, which the spec derives): with `P1 = 0` COMP_P answers exactly 0
under the guard whatever else the state holds; P1 need not be 0 for the guard; and past the guard the divisor of the
finishing formulas is never 0. -/
def Obligations.ZeroGuardPreventsDivision : Prop :=
  ∀ s : State, s.status.calValid = true →
    ∃ t, exec .compP s = .next t ∧
      (Ref.x s 3 = 0 → t.press = 0 ∧ t.status.pGuard = true) ∧
      (Ref.x s 3 = 1 → Ref.x s 4 = -1 → Ref.x s 5 = 0 → s.tFine.toInt = 128422 →
        t.press = 0 ∧ t.status.pGuard = true) ∧
      (t.status.pGuard = true → t.press = 0) ∧
      (t.status.pGuard = false → (s2u (pressFirst s.tFine s.coef).v1).val.toNat ≠ 0)

/-- 43_pressure.md R112: without a temperature COMP_P runs as it would with one, on `T_FINE` as it stands, and sets ORDER;
with `T_FINE = 0` the spec's example coefficients and sample give 968. -/
def Obligations.PressureWithoutTemperature : Prop :=
  (∀ s : State, s.status.calValid = true → s.status.tValid = false →
    ∃ t t', exec .compP s = .next t ∧ exec .compP { s with status := { s.status with tValid := true } } = .next t' ∧
      t.errstat.order = true ∧
      t = { t' with
            status := { t'.status with tValid := false }
            errstat := { t'.errstat with order := true } }) ∧
  (∀ s : State, s.status.calValid = true → s.tFine = 0 → Ref.rawP s = 415148 →
    Ref.x s 3 = 36477 → Ref.x s 4 = -10685 → Ref.x s 5 = 3024 → Ref.x s 6 = 2855 → Ref.x s 7 = 140 →
    Ref.x s 8 = -7 → Ref.x s 9 = 15500 → Ref.x s 10 = -14600 → Ref.x s 11 = 6000 →
    ∃ t, exec .compP s = .next t ∧ t.press.toNat = 968)

/-- 40_arithmetic.md section 5, the meaning the spec derives from R83: a COMP_P that leaves OVF at 0 has computed the formula
over the unbounded integers, guard included. -/
def Obligations.PressureExactWithoutOverflow : Prop :=
  ∀ s t : State, s.status.calValid = true → exec .compP s = .next t → t.errstat.ovf = false →
    (t.press.toNat : Int) = (Ref.press id id (Ref.x s) (Ref.rawP s) s.tFine.toInt).press ∧
    (t.status.pGuard = true ↔ (Ref.press id id (Ref.x s) (Ref.rawP s) s.tFine.toInt).denominator = 0)

/-! ### Humidity -/

/-- 44_humidity.md R120: COMP_H, byte 0x05. Refused without a calibration; otherwise `HUM` is the formula's over wrapped
32-bit integers, clamped, H_VALID is set, OVF and ORDER are set when due and never cleared, and nothing else changes. (The
body of the formula is the rule's, which marks it as general knowledge, 93_implementation_defined.md G3.) -/
def Obligations.CompHFollowsTheFormula : Prop :=
  decode 0x05#8 = .ok .compH ∧
  ∀ s : State,
    (s.status.calValid = false →
      exec .compH s = .next { s with errstat := { s.errstat with errSeq := true } }) ∧
    (s.status.calValid = true →
      ∃ t, exec .compH s = .next t ∧
        (let r := Ref.hum Ref.wrapS (Ref.x s) (Ref.rawH s) s.tFine.toInt
         (t.hum.toNat : Int) = r.hum ∧
         t = { s with
               hum := t.hum
               status := { s.status with hValid := true }
               errstat := { s.errstat with
                 ovf := s.errstat.ovf || Ref.overflowed r.signed []
                 order := s.errstat.order || !s.status.tValid } }))

/-- The clamp invariant (44_humidity.md, which the spec derives): whatever the inputs and whether or not anything overflowed,
COMP_H and SAMPLE write a percentage. With all six coefficients 0 it is 0. -/
def Obligations.HumidityIsClamped : Prop :=
  ∀ s : State, s.status.calValid = true →
    (∃ t, exec .compH s = .next t ∧ t.hum.toNat ≤ 100 ∧
      ((∀ i, 12 ≤ i → i ≤ 17 → Ref.x s i = 0) → t.hum = 0)) ∧
    (∃ t, exec .sample s = .next t ∧ t.hum.toNat ≤ 100)

/-- 44_humidity.md R122: without a temperature COMP_H runs as it would with one, on `T_FINE` as it stands, and sets ORDER;
with `T_FINE = 0` the rule's example gives 58. -/
def Obligations.HumidityWithoutTemperature : Prop :=
  (∀ s : State, s.status.calValid = true → s.status.tValid = false →
    ∃ t t', exec .compH s = .next t ∧ exec .compH { s with status := { s.status with tValid := true } } = .next t' ∧
      t.errstat.order = true ∧
      t = { t' with
            status := { t'.status with tValid := false }
            errstat := { t'.errstat with order := true } }) ∧
  (∀ s : State, s.status.calValid = true → s.tFine = 0 → Ref.rawH s = 30000 →
    Ref.x s 12 = 75 → Ref.x s 13 = 367 → Ref.x s 14 = 0 → Ref.x s 15 = 301 → Ref.x s 16 = 50 → Ref.x s 17 = 30 →
    ∃ t, exec .compH s = .next t ∧ t.hum.toNat = 58)

/-- 40_arithmetic.md section 5, the meaning the spec derives from R83: a COMP_H that leaves OVF at 0 has computed the formula
over the unbounded integers, clamped. -/
def Obligations.HumidityExactWithoutOverflow : Prop :=
  ∀ s t : State, s.status.calValid = true → exec .compH s = .next t → t.errstat.ovf = false →
    (t.hum.toNat : Int) = (Ref.hum id (Ref.x s) (Ref.rawH s) s.tFine.toInt).hum

/-! ### SAMPLE and RESET -/

/-- 45_system.md R131: SAMPLE, byte 0x06. Refused without a calibration; otherwise the three formulas, the pressure and the
humidity with the `T_FINE` just computed, all three valid flags set, P_GUARD the pressure part's, OVF set if any part
overflowed, ORDER untouched, and nothing else changed. -/
def Obligations.SampleComputesAllThree : Prop :=
  decode 0x06#8 = .ok .sample ∧
  ∀ s : State,
    (s.status.calValid = false →
      exec .sample s = .next { s with errstat := { s.errstat with errSeq := true } }) ∧
    (s.status.calValid = true →
      ∃ t, exec .sample s = .next t ∧
        (let r := Ref.temp Ref.wrapS (Ref.x s) (Ref.rawT s)
         let p := Ref.press Ref.wrapS Ref.wrapU (Ref.x s) (Ref.rawP s) r.tFine
         let h := Ref.hum Ref.wrapS (Ref.x s) (Ref.rawH s) r.tFine
         t.tFine.toInt = r.tFine ∧ t.temp.toInt = Ref.tenths r.tFine ∧
         (t.press.toNat : Int) = p.press ∧ (t.hum.toNat : Int) = h.hum ∧
         t = { s with
               tFine := t.tFine
               temp := t.temp
               press := t.press
               hum := t.hum
               status := { s.status with
                 tValid := true
                 pValid := true
                 hValid := true
                 pGuard := decide (p.denominator = 0) }
               errstat := { s.errstat with
                 ovf := s.errstat.ovf || Ref.overflowed r.signed [] || Ref.overflowed p.signed p.unsigned ||
                   Ref.overflowed h.signed [] } }))

/-- SAMPLE ends where COMP_T, COMP_P, COMP_H in that order end (45_system.md, which the spec derives). -/
def Obligations.SampleEqualsThreeCommands : Prop :=
  ∀ s : State, s.status.calValid = true →
    ∃ t1 t2 t3, exec .compT s = .next t1 ∧ exec .compP t1 = .next t2 ∧ exec .compH t2 = .next t3 ∧
      exec .sample s = .next t3 ∧ t3.errstat.order = s.errstat.order

/-- 45_system.md R132: RESET, byte 0x07, accepted in every state, puts every piece of the block's state to its reset value,
as the `Reset` transaction does; no other command clears a sticky flag or CAL_VALID. (That the parameter, the host's pending transactions and the answer stay
is the model's reading, log entry 5.) -/
def Obligations.ResetCommandClearsEverything : Prop :=
  decode 0x07#8 = .ok .reset ∧
  (∀ s : State, ∃ t, exec .reset s = .next t ∧
    (∀ a : Nat, Memory.read t.win a = 0x00#8) ∧ (∀ i : Nat, Ref.x t i = 0) ∧
    t.tFine = 0 ∧ t.temp = 0 ∧ t.press = 0 ∧ t.hum = 0 ∧ t.status.byte = 0x00#8 ∧ t.errstat.byte = 0x00#8 ∧
    t = { State.reset with h6Signed := s.h6Signed, pending := s.pending, reply := s.reply } ∧
    perform .reset s = exec .reset s) ∧
  (∀ (i : Instr) (s t : State), exec i s = .next t → i ≠ .reset →
    (s.status.calValid = true → t.status.calValid = true) ∧
    (s.errstat.ovf = true → t.errstat.ovf = true) ∧ (s.errstat.order = true → t.errstat.order = true) ∧
    (s.errstat.errCmd = true → t.errstat.errCmd = true) ∧ (s.errstat.errSeq = true → t.errstat.errSeq = true) ∧
    (s.errstat.errAddr = true → t.errstat.errAddr = true))

/-- 10_state.md R27, 70_reset_and_hazards.md R161: what reset leaves, and, in every state that meets the invariant, that a
result whose valid flag is 0 reads 0. -/
def Obligations.ResetValues : Prop :=
  (∀ a : Nat, Memory.read State.reset.win a = 0x00#8) ∧ (∀ i : Nat, Ref.x State.reset i = 0) ∧
  State.reset.tFine.toInt = 0 ∧ State.reset.temp.toInt = 0 ∧ State.reset.press.toNat = 0 ∧
  State.reset.hum.toNat = 0 ∧ State.reset.status.byte = 0x00#8 ∧ State.reset.errstat.byte = 0x00#8 ∧
  (∀ s : State, s.Inv →
    (s.status.tValid = false → s.tFine = 0 ∧ s.temp = 0) ∧ (s.status.pValid = false → s.press = 0) ∧
    (s.status.hValid = false → s.hum = 0))

/-- 70_reset_and_hazards.md R160, R162, R163: the `Reset` transaction needs no precondition and puts every piece of state to
its reset value; the RESET command, written to CMD, has exactly its effect; and nothing survives: two states with the same
parameter and the same transactions to come are the same state after it, whatever they held. (That the parameter and the transactions to come stay is the model's
reading, log entry 5.) -/
def Obligations.ResetForgetsEverything : Prop :=
  (∀ (s : State) (t : Transaction) (rest : List Transaction), Ref.resets t → s.pending = t :: rest →
    step s = .next { State.reset with h6Signed := s.h6Signed, pending := rest, reply := none }) ∧
  (∀ (s s' : State) (t t' : Transaction) (rest : List Transaction), Ref.resets t → Ref.resets t' →
    s.h6Signed = s'.h6Signed → s.pending = t :: rest → s'.pending = t' :: rest → step s = step s')

/-! ### Errors -/

/-- 60_exceptions.md R143: ERR_SEQ is raised by DECODE on a populated file and by the five others on an unpopulated one,
nothing else changing, and by nothing else: a command that passes its check leaves it, and NOP and RESET have none. -/
def Obligations.SequenceRefusals : Prop :=
  (∀ (i : Instr) (s : State),
    (i = .decode ∧ s.status.calValid = true ∨
      (i = .encode ∨ i = .compT ∨ i = .compP ∨ i = .compH ∨ i = .sample) ∧ s.status.calValid = false) →
    exec i s = .next { s with errstat := { s.errstat with errSeq := true } }) ∧
  (∀ (i : Instr) (s t : State), exec i s = .next t → s.errstat.errSeq = false → t.errstat.errSeq = true →
    (i = .decode ∧ s.status.calValid = true ∨
      (i = .encode ∨ i = .compT ∨ i = .compP ∨ i = .compH ∨ i = .sample) ∧ s.status.calValid = false))

/-- 60_exceptions.md R141, R142, R144, R148: at most one refusal applies to a transaction, the first in the order address,
command byte, sequence. If one does, its flag is set and no other state changes; a refused read answers 0x00 and a refused
write's data is discarded. If none does, no refusal flag is raised: the three are as they were, or cleared by a reset. The
read of CMD is no error and answers 0x00. The informational flags belong to commands not refused, and one command may set
both. -/
def Obligations.RefusalsArePrecise : Prop :=
  (∀ (s : State) (tr : Transaction) (rest : List Transaction), s.pending = tr :: rest →
    (∀ f, Ref.refusal s tr = some f →
      step s = .next { s with
        pending := rest
        reply := (match tr with | .read _ => some 0x00#8 | .write _ _ => none | .reset => none)
        errstat := { s.errstat with
          errCmd := s.errstat.errCmd || decide (f = .errCmd)
          errSeq := s.errstat.errSeq || decide (f = .errSeq)
          errAddr := s.errstat.errAddr || decide (f = .errAddr) } }) ∧
    (Ref.refusal s tr = none →
      ∃ t, step s = .next t ∧
        (¬ Ref.resets tr → t.errstat.errCmd = s.errstat.errCmd ∧ t.errstat.errSeq = s.errstat.errSeq ∧
          t.errstat.errAddr = s.errstat.errAddr) ∧
        (Ref.resets tr → t.errstat.errCmd = false ∧ t.errstat.errSeq = false ∧ t.errstat.errAddr = false) ∧
        (tr = .read 0x00#8 → t = { s with pending := rest, reply := some 0x00#8 }))) ∧
  ∃ s t : State, s.errstat.byte = 0x00#8 ∧ exec .compP s = .next t ∧ t.errstat.ovf = true ∧ t.errstat.order = true

/-- 60_exceptions.md R146: which commands set ORDER, and when; a refused one does not. The command completes and writes its
result all the same. -/
def Obligations.OrderFlagRecordsMissingTemperature : Prop :=
  ∀ (i : Instr) (s : State), i ≠ .reset →
    ∃ t, exec i s = .next t ∧
      (t.errstat.order = true ↔
        s.errstat.order = true ∨
          ((i = .compP ∨ i = .compH) ∧ s.status.calValid = true ∧ s.status.tValid = false)) ∧
      (i = .compP → s.status.calValid = true → t.status.pValid = true ∧
        (t.press.toNat : Int) = (Ref.press Ref.wrapS Ref.wrapU (Ref.x s) (Ref.rawP s) s.tFine.toInt).press) ∧
      (i = .compH → s.status.calValid = true → t.status.hValid = true ∧
        (t.hum.toNat : Int) = (Ref.hum Ref.wrapS (Ref.x s) (Ref.rawH s) s.tFine.toInt).hum)

/-- 60_exceptions.md R145: which commands set OVF, and when. DECODE, and the other commands without arithmetic, never do; the
four that compute set it exactly when an exact result did not fit, and write their results and valid flags all the same. -/
def Obligations.OverflowFlagRecordsWrappedResults : Prop :=
  (∀ (i : Instr) (s t : State), exec i s = .next t → i = .nop ∨ i = .decode ∨ i = .encode →
    t.errstat.ovf = s.errstat.ovf) ∧
  ∀ s : State, s.status.calValid = true →
    (let temp := Ref.temp Ref.wrapS (Ref.x s) (Ref.rawT s)
     let press := Ref.press Ref.wrapS Ref.wrapU (Ref.x s) (Ref.rawP s) s.tFine.toInt
     let hum := Ref.hum Ref.wrapS (Ref.x s) (Ref.rawH s) s.tFine.toInt
     let press' := Ref.press Ref.wrapS Ref.wrapU (Ref.x s) (Ref.rawP s) temp.tFine
     let hum' := Ref.hum Ref.wrapS (Ref.x s) (Ref.rawH s) temp.tFine
     (∃ t, exec .compT s = .next t ∧ t.tFine.toInt = temp.tFine ∧ t.temp.toInt = Ref.tenths temp.tFine ∧
       t.status.tValid = true ∧
       (t.errstat.ovf = true ↔ s.errstat.ovf = true ∨ ∃ z ∈ temp.signed, Ref.inS z = false)) ∧
     (∃ t, exec .compP s = .next t ∧ (t.press.toNat : Int) = press.press ∧ t.status.pValid = true ∧
       (t.errstat.ovf = true ↔ s.errstat.ovf = true ∨ (∃ z ∈ press.signed, Ref.inS z = false) ∨
         ∃ z ∈ press.unsigned, Ref.inU z = false)) ∧
     (∃ t, exec .compH s = .next t ∧ (t.hum.toNat : Int) = hum.hum ∧ t.status.hValid = true ∧
       (t.errstat.ovf = true ↔ s.errstat.ovf = true ∨ ∃ z ∈ hum.signed, Ref.inS z = false)) ∧
     ∃ t, exec .sample s = .next t ∧ t.tFine.toInt = temp.tFine ∧ t.temp.toInt = Ref.tenths temp.tFine ∧
       (t.press.toNat : Int) = press'.press ∧ (t.hum.toNat : Int) = hum'.hum ∧
       t.status.tValid = true ∧ t.status.pValid = true ∧ t.status.hValid = true ∧
       (t.errstat.ovf = true ↔ s.errstat.ovf = true ∨
         (∃ z ∈ temp.signed ++ press'.signed ++ hum'.signed, Ref.inS z = false) ∨
         ∃ z ∈ press'.unsigned, Ref.inU z = false))

/-- 60_exceptions.md R150: a step that performs a reset clears all five ERRSTAT flags, and every other step keeps each flag
that was set. -/
def Obligations.ErrorFlagsAreSticky : Prop :=
  ∀ (s t : State), step s = .next t →
    ((∃ tr rest, s.pending = tr :: rest ∧ Ref.resets tr) →
      t.errstat = { ovf := false, order := false, errCmd := false, errSeq := false, errAddr := false }) ∧
    ((¬ ∃ tr rest, s.pending = tr :: rest ∧ Ref.resets tr) →
      (s.errstat.ovf = true → t.errstat.ovf = true) ∧ (s.errstat.order = true → t.errstat.order = true) ∧
      (s.errstat.errCmd = true → t.errstat.errCmd = true) ∧ (s.errstat.errSeq = true → t.errstat.errSeq = true) ∧
      (s.errstat.errAddr = true → t.errstat.errAddr = true))

/-! ### The whole machine -/

/-- The invariant holds right after reset. -/
def Obligations.ResetMeetsTheInvariant : Prop := State.reset.Inv

/-- Every step, from every state that meets the invariant, keeps it: the window stays canonical and holds window addresses
only, results are 0 until their flag is set, `T_FINE`, `PRESS` and `HUM` stay in their ranges, `TEMP` belongs to `T_FINE`, and
OVF and ORDER have a cause. -/
def Obligations.StepKeepsTheInvariant : Prop :=
  ∀ s t : State, s.Inv → step s = .next t → t.Inv

/-- Who may write what (10_state.md section 9, which the spec derives; 10_state.md section 3, "The file is written only by a
successful DECODE … and by reset"): each piece of state changes in a step only if the transaction is one of those listed for
it. That the parameter, carried in the state, never changes is the model's choice (log entry 3). -/
def Obligations.OnlyTheListedTransactionsWrite : Prop :=
  ∀ (s t : State) (tr : Transaction) (rest : List Transaction), s.pending = tr :: rest → step s = .next t →
    Memory.wf s.win →
    let cmd : Nat → Transaction := fun n => .write 0x00#8 (BitVec.ofNat 8 n)
    (∀ a : Nat, Memory.read t.win a ≠ Memory.read s.win a →
      (∃ d, tr = .write (BitVec.ofNat 8 a) d ∧ (Ref.calw a ∨ Ref.raww a)) ∨ (tr = cmd 0x02 ∧ Ref.calw a) ∨
        Ref.resets tr) ∧
    (t.coef ≠ s.coef → (tr = cmd 0x01 ∧ s.status.calValid = false) ∨ Ref.resets tr) ∧
    (t.tFine ≠ s.tFine ∨ t.temp ≠ s.temp ∨ t.status.tValid ≠ s.status.tValid →
      tr = cmd 0x03 ∨ tr = cmd 0x06 ∨ Ref.resets tr) ∧
    (t.press ≠ s.press ∨ t.status.pValid ≠ s.status.pValid ∨ t.status.pGuard ≠ s.status.pGuard →
      tr = cmd 0x04 ∨ tr = cmd 0x06 ∨ Ref.resets tr) ∧
    (t.hum ≠ s.hum ∨ t.status.hValid ≠ s.status.hValid → tr = cmd 0x05 ∨ tr = cmd 0x06 ∨ Ref.resets tr) ∧
    (t.status.calValid ≠ s.status.calValid → tr = cmd 0x01 ∨ Ref.resets tr) ∧
    (t.errstat.ovf ≠ s.errstat.ovf → tr = cmd 0x03 ∨ tr = cmd 0x04 ∨ tr = cmd 0x05 ∨ tr = cmd 0x06 ∨ Ref.resets tr) ∧
    (t.errstat.order ≠ s.errstat.order → tr = cmd 0x04 ∨ tr = cmd 0x05 ∨ Ref.resets tr) ∧
    t.h6Signed = s.h6Signed

/-- Ignored bits (70_reset_and_hazards.md section 3, which the spec derives): the low four bits of `W[0xF9]` and `W[0xFC]` enter no
computation. Two states whose windows differ in them alone end every command with the same state but for the window. -/
def Obligations.IgnoredBitsEnterNothing : Prop :=
  ∀ (i : Instr) (s : State) (w : Memory),
    (∀ a : Nat, a ≠ 0xF9 → a ≠ 0xFC → Memory.read w a = Memory.read s.win a) →
    (Memory.read w 0xF9).extractLsb' 4 4 = (Memory.read s.win 0xF9).extractLsb' 4 4 →
    (Memory.read w 0xFC).extractLsb' 4 4 = (Memory.read s.win 0xFC).extractLsb' 4 4 →
    ∃ t t', exec i s = .next t ∧ exec i { s with win := w } = .next t' ∧ t' = { t with win := t'.win }

/-- The parameter `H6_SIGNED` (00_scope.md section 4): false after reset, and no step changes it (that it is carried in the
state is the model's choice, log entry 3). It decides the number that COMP_H and SAMPLE take the byte of H6 for, and the word
that COEF_RB shows for it; no other coefficient's word depends on it. The last clause is vectors V-H5 and V-H6 of
95_test_vectors.md: one byte, 0xE2, two humidities. -/
def Obligations.SignednessOfH6IsAParameter : Prop :=
  State.reset.h6Signed = false ∧
  (∀ s t : State, step s = .next t → t.h6Signed = s.h6Signed) ∧
  (∀ c : Coefs,
    (h6Operand false c).toInt = c.h6.toNat ∧ (h6Operand true c).toInt = Ref.sext 8 c.h6.toNat ∧
    ((coefWord false c 17).toNat : Int) = c.h6.toNat ∧
    ((coefWord true c 17).toNat : Int) = Ref.sext 8 c.h6.toNat % 65536 ∧
    ∀ i : Nat, i ≠ 17 → ∀ b : Bool, coefWord b c i = coefWord false c i) ∧
  (∀ (s : State) (b : Bool),
    readAnswer 0x42#8 { s with h6Signed := b } = s.coef.h6 ∧
    readAnswer 0x43#8 { s with h6Signed := b } = if b = true ∧ 128 ≤ s.coef.h6.toNat then 0xFF#8 else 0x00#8) ∧
  (∀ (s : State) (b : Bool), s.status.calValid = true →
    (let h6 : Int := if b then Ref.sext 8 s.coef.h6.toNat else s.coef.h6.toNat
     let x : Nat → Int := fun i => if i = 17 then h6 else Ref.x s i
     (∃ t, exec .compH { s with h6Signed := b } = .next t ∧
       (t.hum.toNat : Int) = (Ref.hum Ref.wrapS x (Ref.rawH s) s.tFine.toInt).hum) ∧
     ∃ t, exec .sample { s with h6Signed := b } = .next t ∧
       (t.hum.toNat : Int) = (Ref.hum Ref.wrapS x (Ref.rawH s) t.tFine.toInt).hum)) ∧
  ∀ s : State, s.status.calValid = true → s.tFine.toInt = 128422 → Ref.rawH s = 30000 →
    Ref.x s 12 = 75 → Ref.x s 13 = 367 → Ref.x s 14 = 0 → Ref.x s 15 = 301 → Ref.x s 16 = 50 → s.coef.h6 = 0xE2#8 →
    (∃ t, exec .compH { s with h6Signed := false } = .next t ∧ t.hum.toNat = 68) ∧
    ∃ t, exec .compH { s with h6Signed := true } = .next t ∧ t.hum.toNat = 57

/-- What a command leaves under the two settings of `H6_SIGNED` (00_scope.md section 4): two states that differ in the
parameter alone end every command with the same fields of the state, but for the parameter, and for `HUM` and OVF after COMP_H
and SAMPLE. The fields hold H6 as its 8 bits (the model's choice, log entries 3 and 11), which is why DECODE leaves the same
ones; the number `x[17]` they stand for and the word COEF_RB shows do depend on the parameter (`SignednessOfH6IsAParameter`).
That ENCODE writes the same bytes under both is 41_calibration.md section 3. -/
def Obligations.CommandEndStatesUnderH6Signed : Prop :=
  ∀ (i : Instr) (s : State),
    ∃ t t', exec i { s with h6Signed := false } = .next t ∧ exec i { s with h6Signed := true } = .next t' ∧
      t' = { t with h6Signed := true, hum := t'.hum, errstat := { t.errstat with ovf := t'.errstat.ovf } } ∧
      (i ≠ .compH → i ≠ .sample → t' = { t with h6Signed := true })
end

