-- ==== Sys2Proof/Laws/Arith.lean ====
section
/-! SUPPORT. What each primitive of the datapath answers, as integers: cite these instead of unfolding a primitive. -/

namespace Sys2Proof.Laws

open Sys2Proof.Machine

@[simp] theorem wrap_toInt (z : Int) : (wrap z).toInt = Ref.wrapS z := by
  unfold wrap Ref.wrapS
  rw [BitVec.toInt_ofInt, Int.bmod_def]
  norm_num
  split <;> omega

@[simp] theorem wrap_toNat (z : Int) : ((wrap z).toNat : Int) = Ref.wrapU z := by
  unfold wrap Ref.wrapU
  rw [BitVec.toNat_ofInt]
  norm_num
  omega

theorem fitsS_eq (z : Int) : fitsS z = Ref.inS z := by
  unfold fitsS Ref.inS
  rw [Bool.decide_and]

theorem fitsU_eq (z : Int) : fitsU z = Ref.inU z := by
  unfold fitsU Ref.inU
  rw [Bool.decide_and]
  congr 1
  exact decide_eq_decide.mpr (by omega)

theorem inS_iff (z : Int) : Ref.inS z = true ↔ -2147483648 ≤ z ∧ z ≤ 2147483647 := decide_eq_true_iff

theorem inU_iff (z : Int) : Ref.inU z = true ↔ 0 ≤ z ∧ z ≤ 4294967295 := decide_eq_true_iff

theorem wrapS_of_inS {z : Int} (h : Ref.inS z = true) : Ref.wrapS z = z := by
  rw [inS_iff] at h
  unfold Ref.wrapS
  omega

theorem wrapU_of_inU {z : Int} (h : Ref.inU z = true) : Ref.wrapU z = z := by
  rw [inU_iff] at h
  unfold Ref.wrapU
  omega

theorem wrapS_inS (z : Int) : Ref.inS (Ref.wrapS z) = true := by
  rw [inS_iff]
  unfold Ref.wrapS
  omega

theorem wrapU_inU (z : Int) : Ref.inU (Ref.wrapU z) = true := by
  rw [inU_iff]
  unfold Ref.wrapU
  omega

theorem toInt_range (a : S32) : -2147483648 ≤ a.toInt ∧ a.toInt ≤ 2147483647 := by
  have h1 := BitVec.toInt_lt (x := a)
  have h2 := BitVec.le_toInt (x := a)
  norm_num at h1 h2
  omega

theorem toNat_range (a : U32) : a.toNat < 4294967296 := a.isLt

/-- The unsigned reading of 32 bits is `wrapU` of their signed reading. -/
theorem toNat_eq_wrapU_toInt (a : S32) : (a.toNat : Int) = Ref.wrapU a.toInt := by
  have h := a.isLt
  unfold Ref.wrapU
  rw [BitVec.toInt_eq_toNat_cond]
  split <;> omega

/-- The signed reading of 32 bits is `wrapS` of their unsigned reading. -/
theorem toInt_eq_wrapS_toNat (a : U32) : a.toInt = Ref.wrapS a.toNat := by
  have h := a.isLt
  unfold Ref.wrapS
  rw [BitVec.toInt_eq_toNat_cond]
  split <;> omega

@[simp] theorem narrowS_val (z : Int) : (narrowS z).val = wrap z := rfl
@[simp] theorem narrowS_ovf (z : Int) : (narrowS z).ovf = !Ref.inS z := by rw [narrowS, fitsS_eq]
@[simp] theorem narrowU_val (z : Int) : (narrowU z).val = wrap z := rfl
@[simp] theorem narrowU_ovf (z : Int) : (narrowU z).ovf = !Ref.inU z := by rw [narrowU, fitsU_eq]

theorem adds_spec (a b : S32) :
    (adds a b).val.toInt = Ref.wrapS (a.toInt + b.toInt) ∧ (adds a b).ovf = !Ref.inS (a.toInt + b.toInt) := by
  simp [adds]

theorem subs_spec (a b : S32) :
    (subs a b).val.toInt = Ref.wrapS (a.toInt - b.toInt) ∧ (subs a b).ovf = !Ref.inS (a.toInt - b.toInt) := by
  simp [subs]

theorem muls_spec (a b : S32) :
    (muls a b).val.toInt = Ref.wrapS (a.toInt * b.toInt) ∧ (muls a b).ovf = !Ref.inS (a.toInt * b.toInt) := by
  simp [muls]

theorem shls_spec (a : S32) (k : Nat) :
    (shls a k).val.toInt = Ref.wrapS (a.toInt * ((2 ^ k : Nat) : Int)) ∧
      (shls a k).ovf = !Ref.inS (a.toInt * ((2 ^ k : Nat) : Int)) := by
  simp [shls]

theorem mulu_spec (a b : U32) :
    ((mulu a b).val.toNat : Int) = Ref.wrapU ((a.toNat : Int) * b.toNat) ∧
      (mulu a b).ovf = !Ref.inU ((a.toNat : Int) * b.toNat) := by
  simp [mulu]

theorem shlu_spec (a : U32) (k : Nat) :
    ((shlu a k).val.toNat : Int) = Ref.wrapU ((a.toNat : Int) * ((2 ^ k : Nat) : Int)) ∧
      (shlu a k).ovf = !Ref.inU ((a.toNat : Int) * ((2 ^ k : Nat) : Int)) := by
  simp [shlu]

theorem s2u_spec (a : S32) : ((s2u a).val.toNat : Int) = Ref.wrapU a.toInt ∧ (s2u a).ovf = !Ref.inU a.toInt := by
  simp [s2u]

theorem u2s_spec (a : U32) : (u2s a).val.toInt = Ref.wrapS a.toNat ∧ (u2s a).ovf = !Ref.inS a.toNat := by
  simp [u2s]

/-- A quotient by a positive number lies between the dividend and 0. -/
theorem ediv_within {z : Int} {n : Nat} (hn : 0 < n) :
    (0 ≤ z → 0 ≤ z / (n : Int) ∧ z / (n : Int) ≤ z) ∧ (z < 0 → z ≤ z / (n : Int) ∧ z / (n : Int) < 0) := by
  have hn' : (0 : Int) < n := by exact_mod_cast hn
  refine ⟨fun h => ⟨Int.ediv_nonneg h hn'.le, Int.ediv_le_self _ h⟩, fun h => ⟨?_, Int.ediv_neg_of_neg_of_pos h hn'⟩⟩
  rw [Int.le_ediv_iff_mul_le hn']
  nlinarith

@[simp] theorem asr_toInt (a : S32) (k : Nat) : (asr a k).toInt = a.toInt / ((2 ^ k : Nat) : Int) := by
  have ha := toInt_range a
  have h := ediv_within (z := a.toInt) (n := 2 ^ k) (Nat.two_pow_pos k)
  rw [asr, wrap_toInt]
  apply wrapS_of_inS
  rw [inS_iff]
  rcases lt_or_ge a.toInt 0 with h0 | h0
  · have := h.2 h0; omega
  · have := h.1 h0; omega

theorem divs_toInt (a : S32) {b : Nat} (hb0 : 0 < b) : (divs a b).toInt = a.toInt.tdiv (b : Int) := by
  have ha := toInt_range a
  rw [divs, wrap_toInt]
  apply wrapS_of_inS
  rw [inS_iff]
  rcases lt_or_ge a.toInt 0 with h0 | h0
  · have h := (ediv_within (z := -a.toInt) hb0).1 (by omega)
    have e : a.toInt.tdiv (b : Int) = -((-a.toInt) / (b : Int)) := by
      rw [← Int.tdiv_eq_ediv_of_nonneg (by omega : 0 ≤ -a.toInt), Int.neg_tdiv, neg_neg]
    omega
  · have h := (ediv_within (z := a.toInt) hb0).1 h0
    rw [Int.tdiv_eq_ediv_of_nonneg h0]
    omega

@[simp] theorem lsr_toNat (a : U32) (k : Nat) : (lsr a k).toNat = a.toNat / 2 ^ k := by
  have h := a.isLt
  have := Nat.div_le_self a.toNat (2 ^ k)
  rw [lsr, BitVec.toNat_ofNat, Nat.mod_eq_of_lt (by omega)]

@[simp] theorem divu_toNat (a b : U32) : (divu a b).toNat = a.toNat / b.toNat := by
  have h := a.isLt
  have := Nat.div_le_self a.toNat b.toNat
  rw [divu, BitVec.toNat_ofNat, Nat.mod_eq_of_lt (by omega)]

/-- Widening an unsigned operand changes no value. -/
theorem zx_toInt {n : Nat} (v : BitVec n) (hn : n < 32) : (zx v).toInt = (v.toNat : Int) := by
  have hv : v.toNat < 2 ^ n := v.isLt
  have hp : 2 ^ n ≤ 2 ^ 31 := Nat.pow_le_pow_right (by norm_num) (by omega)
  rw [zx, toInt_eq_wrapS_toNat, BitVec.toNat_setWidth, Nat.mod_eq_of_lt (by omega)]
  apply wrapS_of_inS
  rw [inS_iff]
  omega

/-- Widening a signed operand changes no value. -/
theorem sx_toInt {n : Nat} (v : BitVec n) (hn : n ≤ 32) : (sx v).toInt = v.toInt := by
  rw [sx, BitVec.toInt_signExtend_of_le hn]

@[simp] theorem anyOvf_nil : anyOvf [] = false := rfl
@[simp] theorem anyOvf_cons (r : Result) (rs : List Result) : anyOvf (r :: rs) = (r.ovf || anyOvf rs) := rfl

end Sys2Proof.Laws
end

