-- ==== Sys2Proof/Laws/State.lean ====
section
/-! SUPPORT. One lemma per field and update of the state: what `raise`, `toReset`, `commitTemp`, `commitPress`, `commitHum`,
`decodeBody`, `encodeBody`, `ErrStat.refuse` and `ErrStat.note` leave in it. A computed result is a variable in these, so that
no proof unfolds a formula. -/

namespace Sys2Proof.Laws

open Sys2Proof.Machine

@[simp] theorem raise_win (f : RefusalFlag) (s : State) : (raise f s).win = s.win := rfl
@[simp] theorem raise_coef (f : RefusalFlag) (s : State) : (raise f s).coef = s.coef := rfl
@[simp] theorem raise_tFine (f : RefusalFlag) (s : State) : (raise f s).tFine = s.tFine := rfl
@[simp] theorem raise_temp (f : RefusalFlag) (s : State) : (raise f s).temp = s.temp := rfl
@[simp] theorem raise_press (f : RefusalFlag) (s : State) : (raise f s).press = s.press := rfl
@[simp] theorem raise_hum (f : RefusalFlag) (s : State) : (raise f s).hum = s.hum := rfl
@[simp] theorem raise_status (f : RefusalFlag) (s : State) : (raise f s).status = s.status := rfl
@[simp] theorem raise_errstat (f : RefusalFlag) (s : State) : (raise f s).errstat = s.errstat.refuse f := rfl
@[simp] theorem raise_h6Signed (f : RefusalFlag) (s : State) : (raise f s).h6Signed = s.h6Signed := rfl
@[simp] theorem raise_pending (f : RefusalFlag) (s : State) : (raise f s).pending = s.pending := rfl
@[simp] theorem raise_reply (f : RefusalFlag) (s : State) : (raise f s).reply = s.reply := rfl

@[simp] theorem decodeBody_win (s : State) : (decodeBody s).win = s.win := by simp only [decodeBody]
@[simp] theorem decodeBody_coef (s : State) : (decodeBody s).coef = dec s.win := by simp only [decodeBody]
@[simp] theorem decodeBody_tFine (s : State) : (decodeBody s).tFine = s.tFine := by simp only [decodeBody]
@[simp] theorem decodeBody_temp (s : State) : (decodeBody s).temp = s.temp := by simp only [decodeBody]
@[simp] theorem decodeBody_press (s : State) : (decodeBody s).press = s.press := by simp only [decodeBody]
@[simp] theorem decodeBody_hum (s : State) : (decodeBody s).hum = s.hum := by simp only [decodeBody]
@[simp] theorem decodeBody_status (s : State) :
    (decodeBody s).status = { s.status with calValid := true } := by simp only [decodeBody]
@[simp] theorem decodeBody_errstat (s : State) : (decodeBody s).errstat = s.errstat := by simp only [decodeBody]
@[simp] theorem decodeBody_h6Signed (s : State) : (decodeBody s).h6Signed = s.h6Signed := by simp only [decodeBody]
@[simp] theorem decodeBody_pending (s : State) : (decodeBody s).pending = s.pending := by simp only [decodeBody]
@[simp] theorem decodeBody_reply (s : State) : (decodeBody s).reply = s.reply := by simp only [decodeBody]

@[simp] theorem encodeBody_win (s : State) :
    (encodeBody s).win = Memory.writeAll s.win (enc s.coef) := by simp only [encodeBody]
@[simp] theorem encodeBody_coef (s : State) : (encodeBody s).coef = s.coef := by simp only [encodeBody]
@[simp] theorem encodeBody_tFine (s : State) : (encodeBody s).tFine = s.tFine := by simp only [encodeBody]
@[simp] theorem encodeBody_temp (s : State) : (encodeBody s).temp = s.temp := by simp only [encodeBody]
@[simp] theorem encodeBody_press (s : State) : (encodeBody s).press = s.press := by simp only [encodeBody]
@[simp] theorem encodeBody_hum (s : State) : (encodeBody s).hum = s.hum := by simp only [encodeBody]
@[simp] theorem encodeBody_status (s : State) : (encodeBody s).status = s.status := by simp only [encodeBody]
@[simp] theorem encodeBody_errstat (s : State) : (encodeBody s).errstat = s.errstat := by simp only [encodeBody]
@[simp] theorem encodeBody_h6Signed (s : State) : (encodeBody s).h6Signed = s.h6Signed := by simp only [encodeBody]
@[simp] theorem encodeBody_pending (s : State) : (encodeBody s).pending = s.pending := by simp only [encodeBody]
@[simp] theorem encodeBody_reply (s : State) : (encodeBody s).reply = s.reply := by simp only [encodeBody]

@[simp] theorem commitTemp_win (r : TempResult) (s : State) : (commitTemp r s).win = s.win := rfl
@[simp] theorem commitTemp_coef (r : TempResult) (s : State) : (commitTemp r s).coef = s.coef := rfl
@[simp] theorem commitTemp_tFine (r : TempResult) (s : State) : (commitTemp r s).tFine = r.tFine := rfl
@[simp] theorem commitTemp_temp (r : TempResult) (s : State) : (commitTemp r s).temp = r.temp := rfl
@[simp] theorem commitTemp_press (r : TempResult) (s : State) : (commitTemp r s).press = s.press := rfl
@[simp] theorem commitTemp_hum (r : TempResult) (s : State) : (commitTemp r s).hum = s.hum := rfl
@[simp] theorem commitTemp_status (r : TempResult) (s : State) :
    (commitTemp r s).status = { s.status with tValid := true } := rfl
@[simp] theorem commitTemp_errstat (r : TempResult) (s : State) :
    (commitTemp r s).errstat = s.errstat.note r.ovf false := rfl
@[simp] theorem commitTemp_h6Signed (r : TempResult) (s : State) : (commitTemp r s).h6Signed = s.h6Signed := rfl
@[simp] theorem commitTemp_pending (r : TempResult) (s : State) : (commitTemp r s).pending = s.pending := rfl
@[simp] theorem commitTemp_reply (r : TempResult) (s : State) : (commitTemp r s).reply = s.reply := rfl

@[simp] theorem commitPress_win (r : PressResult) (s : State) : (commitPress r s).win = s.win := rfl
@[simp] theorem commitPress_coef (r : PressResult) (s : State) : (commitPress r s).coef = s.coef := rfl
@[simp] theorem commitPress_tFine (r : PressResult) (s : State) : (commitPress r s).tFine = s.tFine := rfl
@[simp] theorem commitPress_temp (r : PressResult) (s : State) : (commitPress r s).temp = s.temp := rfl
@[simp] theorem commitPress_press (r : PressResult) (s : State) : (commitPress r s).press = r.press := rfl
@[simp] theorem commitPress_hum (r : PressResult) (s : State) : (commitPress r s).hum = s.hum := rfl
@[simp] theorem commitPress_status (r : PressResult) (s : State) :
    (commitPress r s).status = { s.status with pValid := true, pGuard := r.guard } := rfl
@[simp] theorem commitPress_errstat (r : PressResult) (s : State) :
    (commitPress r s).errstat = s.errstat.note r.ovf (!s.status.tValid) := rfl
@[simp] theorem commitPress_h6Signed (r : PressResult) (s : State) : (commitPress r s).h6Signed = s.h6Signed := rfl
@[simp] theorem commitPress_pending (r : PressResult) (s : State) : (commitPress r s).pending = s.pending := rfl
@[simp] theorem commitPress_reply (r : PressResult) (s : State) : (commitPress r s).reply = s.reply := rfl

@[simp] theorem commitHum_win (r : HumResult) (s : State) : (commitHum r s).win = s.win := rfl
@[simp] theorem commitHum_coef (r : HumResult) (s : State) : (commitHum r s).coef = s.coef := rfl
@[simp] theorem commitHum_tFine (r : HumResult) (s : State) : (commitHum r s).tFine = s.tFine := rfl
@[simp] theorem commitHum_temp (r : HumResult) (s : State) : (commitHum r s).temp = s.temp := rfl
@[simp] theorem commitHum_press (r : HumResult) (s : State) : (commitHum r s).press = s.press := rfl
@[simp] theorem commitHum_hum (r : HumResult) (s : State) : (commitHum r s).hum = r.val := rfl
@[simp] theorem commitHum_status (r : HumResult) (s : State) :
    (commitHum r s).status = { s.status with hValid := true } := rfl
@[simp] theorem commitHum_errstat (r : HumResult) (s : State) :
    (commitHum r s).errstat = s.errstat.note r.ovf (!s.status.tValid) := rfl
@[simp] theorem commitHum_h6Signed (r : HumResult) (s : State) : (commitHum r s).h6Signed = s.h6Signed := rfl
@[simp] theorem commitHum_pending (r : HumResult) (s : State) : (commitHum r s).pending = s.pending := rfl
@[simp] theorem commitHum_reply (r : HumResult) (s : State) : (commitHum r s).reply = s.reply := rfl

@[simp] theorem toReset_win (s : State) : (toReset s).win = State.reset.win := rfl
@[simp] theorem toReset_coef (s : State) : (toReset s).coef = State.reset.coef := rfl
@[simp] theorem toReset_tFine (s : State) : (toReset s).tFine = State.reset.tFine := rfl
@[simp] theorem toReset_temp (s : State) : (toReset s).temp = State.reset.temp := rfl
@[simp] theorem toReset_press (s : State) : (toReset s).press = State.reset.press := rfl
@[simp] theorem toReset_hum (s : State) : (toReset s).hum = State.reset.hum := rfl
@[simp] theorem toReset_status (s : State) : (toReset s).status = State.reset.status := rfl
@[simp] theorem toReset_errstat (s : State) : (toReset s).errstat = State.reset.errstat := rfl
@[simp] theorem toReset_h6Signed (s : State) : (toReset s).h6Signed = s.h6Signed := rfl
@[simp] theorem toReset_pending (s : State) : (toReset s).pending = s.pending := rfl
@[simp] theorem toReset_reply (s : State) : (toReset s).reply = s.reply := rfl

@[simp] theorem refuse_errCmd_ovf (e : ErrStat) : (e.refuse .errCmd).ovf = e.ovf := rfl
@[simp] theorem refuse_errCmd_order (e : ErrStat) : (e.refuse .errCmd).order = e.order := rfl
@[simp] theorem refuse_errCmd_errCmd (e : ErrStat) : (e.refuse .errCmd).errCmd = true := rfl
@[simp] theorem refuse_errCmd_errSeq (e : ErrStat) : (e.refuse .errCmd).errSeq = e.errSeq := rfl
@[simp] theorem refuse_errCmd_errAddr (e : ErrStat) : (e.refuse .errCmd).errAddr = e.errAddr := rfl
@[simp] theorem refuse_errSeq_ovf (e : ErrStat) : (e.refuse .errSeq).ovf = e.ovf := rfl
@[simp] theorem refuse_errSeq_order (e : ErrStat) : (e.refuse .errSeq).order = e.order := rfl
@[simp] theorem refuse_errSeq_errCmd (e : ErrStat) : (e.refuse .errSeq).errCmd = e.errCmd := rfl
@[simp] theorem refuse_errSeq_errSeq (e : ErrStat) : (e.refuse .errSeq).errSeq = true := rfl
@[simp] theorem refuse_errSeq_errAddr (e : ErrStat) : (e.refuse .errSeq).errAddr = e.errAddr := rfl
@[simp] theorem refuse_errAddr_ovf (e : ErrStat) : (e.refuse .errAddr).ovf = e.ovf := rfl
@[simp] theorem refuse_errAddr_order (e : ErrStat) : (e.refuse .errAddr).order = e.order := rfl
@[simp] theorem refuse_errAddr_errCmd (e : ErrStat) : (e.refuse .errAddr).errCmd = e.errCmd := rfl
@[simp] theorem refuse_errAddr_errSeq (e : ErrStat) : (e.refuse .errAddr).errSeq = e.errSeq := rfl
@[simp] theorem refuse_errAddr_errAddr (e : ErrStat) : (e.refuse .errAddr).errAddr = true := rfl

@[simp] theorem note_ovf (e : ErrStat) (o r : Bool) : (e.note o r).ovf = (e.ovf || o) := rfl
@[simp] theorem note_order (e : ErrStat) (o r : Bool) : (e.note o r).order = (e.order || r) := rfl
@[simp] theorem note_errCmd (e : ErrStat) (o r : Bool) : (e.note o r).errCmd = e.errCmd := rfl
@[simp] theorem note_errSeq (e : ErrStat) (o r : Bool) : (e.note o r).errSeq = e.errSeq := rfl
@[simp] theorem note_errAddr (e : ErrStat) (o r : Bool) : (e.note o r).errAddr = e.errAddr := rfl

/-- ENCODE's body writes the window alone; `w` is a variable here so that no proof unfolds the 32 writes. -/
theorem encodeBody_spec (s : State) :
    ∃ w, encodeBody s = { s with win := w } ∧ w = Memory.writeAll s.win (enc s.coef) :=
  ⟨Memory.writeAll s.win (enc s.coef), by simp only [encodeBody], rfl⟩

end Sys2Proof.Laws
end

