-- ==== Sys2Proof/Laws/Formulas.lean ====
section
/-! SUPPORT. The three compensation functions are the spec's formulas over wrapped integers (`Ref`): cite these instead of
unfolding a formula of the machine. -/

namespace Sys2Proof.Laws

open Sys2Proof.Machine

/-- A three-byte sample, most significant byte first, the low four bits of the third dropped (10_state.md R14, R15). -/
theorem sample20_toNat (a b c : Byte) :
    ((a ++ b ++ c.extractLsb' 4 4 : BitVec 20)).toNat = a.toNat * 4096 + b.toNat * 16 + c.toNat / 16 := by
  have ha := a.isLt
  have hb := b.isLt
  have hc := c.isLt
  have hx : (c.extractLsb' 4 4).toNat = c.toNat / 16 := by
    rw [BitVec.extractLsb'_toNat, Nat.shiftRight_eq_div_pow]
    omega
  have e1 : (a ++ b).toNat = a.toNat * 256 + b.toNat := by
    rw [BitVec.toNat_append, ← Nat.shiftLeft_add_eq_or_of_lt hb, Nat.shiftLeft_eq]
  rw [BitVec.toNat_append, ← Nat.shiftLeft_add_eq_or_of_lt (c.extractLsb' 4 4).isLt, Nat.shiftLeft_eq, e1, hx]
  omega

theorem append8_toNat (a b : Byte) : ((a ++ b : BitVec 16)).toNat = a.toNat * 256 + b.toNat := by
  rw [BitVec.toNat_append, ← Nat.shiftLeft_add_eq_or_of_lt b.isLt, Nat.shiftLeft_eq]

theorem rawT_spec (s : State) : ((rawT s.win).toNat : Int) = Ref.rawT s := by
  unfold rawT Ref.rawT Ref.W
  rw [sample20_toNat]
  push_cast
  rfl

theorem rawP_spec (s : State) : ((rawP s.win).toNat : Int) = Ref.rawP s := by
  unfold rawP Ref.rawP Ref.W
  rw [sample20_toNat]
  push_cast
  rfl

theorem rawH_spec (s : State) : ((rawH s.win).toNat : Int) = Ref.rawH s := by
  unfold rawH Ref.rawH Ref.W
  rw [append8_toNat]
  push_cast
  rfl

theorem rawT_operand (s : State) : (zx (rawT s.win)).toInt = Ref.rawT s := by
  rw [zx_toInt _ (by norm_num), rawT_spec]

theorem rawP_operand (s : State) : (zx (rawP s.win)).toInt = Ref.rawP s := by
  rw [zx_toInt _ (by norm_num), rawP_spec]

theorem rawH_operand (s : State) : (zx (rawH s.win)).toInt = Ref.rawH s := by
  rw [zx_toInt _ (by norm_num), rawH_spec]

theorem rawT_range (s : State) : 0 ≤ Ref.rawT s ∧ Ref.rawT s ≤ 1048575 := by
  have h := (rawT s.win).isLt
  rw [← rawT_spec]
  omega

theorem rawP_range (s : State) : 0 ≤ Ref.rawP s ∧ Ref.rawP s ≤ 1048575 := by
  have h := (rawP s.win).isLt
  rw [← rawP_spec]
  omega

theorem rawH_range (s : State) : 0 ≤ Ref.rawH s ∧ Ref.rawH s ≤ 65535 := by
  have h := (rawH s.win).isLt
  rw [← rawH_spec]
  omega

/-- H6 as an operand is `x[17]` (00_scope.md R7). -/
theorem h6Operand_toInt (s : State) : (h6Operand s.h6Signed s.coef).toInt = Ref.x s 17 := by
  unfold h6Operand
  show _ = if s.h6Signed then s.coef.h6.toInt else (s.coef.h6.toNat : Int)
  split
  · exact sx_toInt _ (by norm_num)
  · exact zx_toInt _ (by norm_num)

/-- A quotient of an S32 by a number above 0 is no wider. -/
theorem wrapS_div_range (z : Int) (k : Nat) (hk : k ≤ 31) :
    -(2147483648 / 2 ^ k) ≤ Ref.wrapS z / ((2 ^ k : Nat) : Int) ∧
      Ref.wrapS z / ((2 ^ k : Nat) : Int) ≤ 2147483648 / 2 ^ k - 1 := by
  have h := (inS_iff _).mp (wrapS_inS z)
  interval_cases k <;> norm_num <;> omega

/-- The temperature formula of the machine is that of 42_temperature.md R100. -/
theorem compensateTemp_spec (raw : S32) (s : State) (hr : 0 ≤ raw.toInt ∧ raw.toInt ≤ 1048575) :
    let r := Ref.temp Ref.wrapS (Ref.x s) raw.toInt
    (compensateTemp raw s.coef).tFine.toInt = r.tFine ∧
      (compensateTemp raw s.coef).temp.toInt = Ref.tenths r.tFine ∧
      (compensateTemp raw s.coef).ovf = Ref.overflowed r.signed [] := by
  have h0 : (zx s.coef.t1).toInt = Ref.x s 0 := zx_toInt _ (by norm_num)
  have h1 : (sx s.coef.t2).toInt = Ref.x s 1 := sx_toInt _ (by norm_num)
  have h2 : (sx s.coef.t3).toInt = Ref.x s 2 := sx_toInt _ (by norm_num)
  have ht1 : 0 ≤ Ref.x s 0 ∧ Ref.x s 0 ≤ 65535 := by
    have := s.coef.t1.isLt
    show 0 ≤ (s.coef.t1.toNat : Int) ∧ (s.coef.t1.toNat : Int) ≤ 65535
    omega
  have ok : ∀ z : Int, -2147483648 ≤ z → z ≤ 2147483647 → Ref.wrapS z = z ∧ Ref.inS z = true :=
    fun z a b => ⟨wrapS_of_inS ((inS_iff z).mpr ⟨a, b⟩), (inS_iff z).mpr ⟨a, b⟩⟩
  -- the sums that never overflow (42_temperature.md R101)
  obtain ⟨b1, b2⟩ := ok (Ref.x s 0 * 2) (by omega) (by omega)
  obtain ⟨d1, d2⟩ := ok (raw.toInt / 8 - Ref.x s 0 * 2) (by omega) (by omega)
  obtain ⟨e1, e2⟩ := ok (raw.toInt / 16 - Ref.x s 0) (by omega) (by omega)
  have r1 := wrapS_div_range ((raw.toInt / 8 - Ref.x s 0 * 2) * Ref.x s 1) 11 (by norm_num)
  have r2 := wrapS_div_range (Ref.wrapS ((raw.toInt / 16 - Ref.x s 0) * (raw.toInt / 16 - Ref.x s 0)) / 4096 * Ref.x s 2) 14
    (by norm_num)
  norm_num at r1 r2
  obtain ⟨t1, t2⟩ := ok (Ref.wrapS ((raw.toInt / 8 - Ref.x s 0 * 2) * Ref.x s 1) / 2048 +
    Ref.wrapS (Ref.wrapS ((raw.toInt / 16 - Ref.x s 0) * (raw.toInt / 16 - Ref.x s 0)) / 4096 * Ref.x s 2) / 16384)
    (by omega) (by omega)
  obtain ⟨u1, u2⟩ := ok ((Ref.wrapS ((raw.toInt / 8 - Ref.x s 0 * 2) * Ref.x s 1) / 2048 +
    Ref.wrapS (Ref.wrapS ((raw.toInt / 16 - Ref.x s 0) * (raw.toInt / 16 - Ref.x s 0)) / 4096 * Ref.x s 2) / 16384) * 5)
    (by omega) (by omega)
  obtain ⟨v1, v2⟩ := ok ((Ref.wrapS ((raw.toInt / 8 - Ref.x s 0 * 2) * Ref.x s 1) / 2048 +
    Ref.wrapS (Ref.wrapS ((raw.toInt / 16 - Ref.x s 0) * (raw.toInt / 16 - Ref.x s 0)) / 4096 * Ref.x s 2) / 16384) * 5 + 128)
    (by omega) (by omega)
  have c5 : (5 : S32).toInt = 5 := by decide
  have c128 : (128 : S32).toInt = 128 := by decide
  refine ⟨?_, ?_, ?_⟩
  · simp only [compensateTemp, Ref.temp, adds_spec, subs_spec, muls_spec, shls_spec, asr_toInt, h0, h1, h2]
    norm_num
    rw [b1, d1, e1, t1]
  · rw [compensateTemp]
    simp only [divs_toInt _ (by norm_num : 0 < 10), Ref.temp, Ref.tenths, adds_spec, subs_spec, muls_spec, shls_spec,
      asr_toInt, h0, h1, h2, c5, c128]
    norm_num
    rw [b1, d1, e1, t1, u1, v1]
  · simp only [compensateTemp, Ref.temp, Ref.overflowed, anyOvf_cons, anyOvf_nil, adds_spec, subs_spec, muls_spec, shls_spec,
      asr_toInt, h0, h1, h2, c5, c128, List.all_cons, List.all_nil]
    norm_num
    rw [b1, d1, e1, t1, u1, b2, d2, e2, t2, u2, v2]
    simp

/-- Every exact result of the lists fits its type exactly when none of their members was reported. -/
theorem overflowed_append (a b c d : List Int) :
    Ref.overflowed (a ++ b) (c ++ d) = (Ref.overflowed a c || Ref.overflowed b d) := by
  unfold Ref.overflowed
  rw [List.all_append, List.all_append]
  cases a.all Ref.inS <;> cases b.all Ref.inS <;> cases c.all Ref.inU <;> cases d.all Ref.inU <;> rfl

/-- The first stage of the machine's pressure formula (43_pressure.md R110). -/
theorem pressFirst_spec (tf : S32) (s : State) :
    let v2 := Ref.pressV2 Ref.wrapS (Ref.x s) tf.toInt
    let v1 := Ref.pressDenominator Ref.wrapS (Ref.x s) tf.toInt
    let v := Ref.pressV Ref.wrapS tf.toInt
    (pressFirst tf s.coef).v2.toInt = v2.value ∧ (pressFirst tf s.coef).v1.toInt = v1.value ∧
      (pressFirst tf s.coef).ovf =
        Ref.overflowed ([tf.toInt / 2 - 64000, v / 4 * (v / 4)] ++ v2.signed ++ v1.signed) [] := by
  have h1 : (zx s.coef.p1).toInt = Ref.x s 3 := zx_toInt _ (by norm_num)
  have h2 : (sx s.coef.p2).toInt = Ref.x s 4 := sx_toInt _ (by norm_num)
  have h3 : (sx s.coef.p3).toInt = Ref.x s 5 := sx_toInt _ (by norm_num)
  have h4 : (sx s.coef.p4).toInt = Ref.x s 6 := sx_toInt _ (by norm_num)
  have h5 : (sx s.coef.p5).toInt = Ref.x s 7 := sx_toInt _ (by norm_num)
  have h6 : (sx s.coef.p6).toInt = Ref.x s 8 := sx_toInt _ (by norm_num)
  have c1 : (64000 : S32).toInt = 64000 := by decide
  have c2 : (32768 : S32).toInt = 32768 := by decide
  simp only [pressFirst, Ref.pressV2, Ref.pressDenominator, Ref.pressSq, Ref.pressV, Ref.overflowed, anyOvf_cons, anyOvf_nil,
    adds_spec, subs_spec, muls_spec, shls_spec, asr_toInt, h1, h2, h3, h4, h5, h6, c1, c2, List.cons_append,
    List.nil_append, List.all_cons, List.all_nil]
  norm_num

/-- The machine's scaled pressure accumulator (43_pressure.md R110). -/
theorem pressAccumulate_spec (raw v2 : S32) :
    let r := Ref.pressAccumulator Ref.wrapS Ref.wrapU raw.toInt v2.toInt
    ((pressAccumulate raw v2).p.toNat : Int) = r.value ∧
      (pressAccumulate raw v2).ovf = Ref.overflowed r.signed r.unsigned := by
  have c : (1048576 : S32).toInt = 1048576 := by decide
  have n : (3125 : U32).toNat = 3125 := by decide
  simp only [pressAccumulate, Ref.pressAccumulator, Ref.overflowed, anyOvf_cons, anyOvf_nil, subs_spec, s2u_spec, mulu_spec,
    asr_toInt, c, n, List.all_cons, List.all_nil]
  norm_num
  grind

/-- The machine's finishing formulas (43_pressure.md R110). -/
theorem pressFinish_spec (p dv : U32) :
    let r := Ref.pressFinish Ref.wrapU p.toNat dv.toNat
    ((pressFinish p dv).p.toNat : Int) = r.value ∧ (pressFinish p dv).ovf = Ref.overflowed r.signed r.unsigned := by
  have hp : (p.toNat < 0x80000000) ↔ ((p.toNat : Int) < 2147483648) := by omega
  unfold pressFinish Ref.pressFinish
  by_cases h : (p.toNat : Int) < 2147483648
  · rw [if_pos (hp.mpr h), if_pos h]
    simp [Ref.overflowed, shlu_spec]
  · rw [if_neg (hp.not.mpr h), if_neg h]
    simp [Ref.overflowed, mulu_spec]

/-- The finishing formulas have no signed result. -/
theorem pressFinish_signed (u : Int → Int) (p dv : Int) : (Ref.pressFinish u p dv).signed = [] := by
  unfold Ref.pressFinish
  split <;> rfl

/-- The second stage of the machine's pressure formula (43_pressure.md R110). -/
theorem pressSecond_spec (q : U32) (s : State) :
    let r := Ref.pascal Ref.wrapS Ref.wrapU (Ref.x s) q.toNat
    ((pressSecond q s.coef).p.toNat : Int) = r.value ∧
      (pressSecond q s.coef).ovf = Ref.overflowed r.signed r.unsigned := by
  have h7 : (sx s.coef.p7).toInt = Ref.x s 9 := sx_toInt _ (by norm_num)
  have h8 : (sx s.coef.p8).toInt = Ref.x s 10 := sx_toInt _ (by norm_num)
  have h9 : (sx s.coef.p9).toInt = Ref.x s 11 := sx_toInt _ (by norm_num)
  simp only [pressSecond, Ref.pascal, Ref.overflowed, anyOvf_cons, anyOvf_nil, adds_spec, muls_spec, mulu_spec, s2u_spec,
    u2s_spec, asr_toInt, lsr_toNat, h7, h8, h9, List.all_cons, List.all_nil]
  push_cast
  simp only [mulu_spec]
  norm_num
  grind

/-- The pressure formula of the machine is that of 43_pressure.md R110, its guard included (R111). -/
theorem compensatePress_spec (raw tf : S32) (s : State) :
    let r := Ref.press Ref.wrapS Ref.wrapU (Ref.x s) raw.toInt tf.toInt
    ((compensatePress raw tf s.coef).press.toNat : Int) = r.press ∧
      (compensatePress raw tf s.coef).guard = decide (r.denominator = 0) ∧
      (compensatePress raw tf s.coef).ovf = Ref.overflowed r.signed r.unsigned := by
  have n100 : (100 : U32).toNat = 100 := by decide
  obtain ⟨f2, f1, fo⟩ := pressFirst_spec tf s
  have hv : (pressFirst tf s.coef).v1 = 0 ↔
      (Ref.pressDenominator Ref.wrapS (Ref.x s) tf.toInt).value = 0 := by
    rw [← f1, ← BitVec.toInt_inj]
    rfl
  unfold compensatePress Ref.press
  by_cases h : (Ref.pressDenominator Ref.wrapS (Ref.x s) tf.toInt).value = 0
  · simp only [if_pos (hv.mpr h), if_pos h]
    exact ⟨rfl, rfl, fo⟩
  · simp only [if_neg (hv.not.mpr h), if_neg h]
    obtain ⟨a1, ao⟩ := pressAccumulate_spec raw (pressFirst tf s.coef).v2
    obtain ⟨d1, d2⟩ := s2u_spec (pressFirst tf s.coef).v1
    obtain ⟨q1, qo⟩ := pressFinish_spec (pressAccumulate raw (pressFirst tf s.coef).v2).p (s2u (pressFirst tf s.coef).v1).val
    obtain ⟨p1, po⟩ := pressSecond_spec
      (pressFinish (pressAccumulate raw (pressFirst tf s.coef).v2).p (s2u (pressFirst tf s.coef).v1).val).p s
    rw [f2] at a1 ao
    rw [f1] at d1 d2
    rw [a1, d1] at q1 qo
    rw [q1] at p1 po
    refine ⟨?_, ?_, ?_⟩
    · rw [divu_toNat, n100, Int.natCast_ediv, p1]
      rfl
    · exact (decide_eq_false h).symm
    · rw [fo, ao, d2, qo, po]
      simp only [Ref.overflowed, pressFinish_signed, List.all_append, List.all_cons, List.all_nil]
      grind

/-- The clamp (44_humidity.md R121): the value shifted last lies between its bounds. -/
theorem humClamp_toInt (v : S32) : (humClamp v).toInt = min (max v.toInt 0) 419430400 := by
  have c0 : (0 : S32).toInt = 0 := by decide
  have c4 : (419430400 : S32).toInt = 419430400 := by decide
  unfold humClamp
  dsimp only
  split <;> split <;> simp only [c0, c4] at * <;> omega

/-- A value that is not negative reads the same unsigned. -/
theorem toNat_of_nonneg {a : S32} (h : 0 ≤ a.toInt) : (a.toNat : Int) = a.toInt := by
  have := toInt_range a
  rw [toNat_eq_wrapU_toInt]
  exact wrapU_of_inU ((inU_iff _).mpr (by omega))

/-- The humidity formula of the machine is that of 44_humidity.md R120. -/
theorem compensateHum_spec (raw tf : S32) (s : State) :
    let r := Ref.hum Ref.wrapS (Ref.x s) raw.toInt tf.toInt
    ((compensateHum raw tf s.h6Signed s.coef).val.toNat : Int) = r.hum ∧
      (compensateHum raw tf s.h6Signed s.coef).ovf = Ref.overflowed r.signed [] := by
  have h1 : (zx s.coef.h1).toInt = Ref.x s 12 := zx_toInt _ (by norm_num)
  have h2 : (sx s.coef.h2).toInt = Ref.x s 13 := sx_toInt _ (by norm_num)
  have h3 : (zx s.coef.h3).toInt = Ref.x s 14 := zx_toInt _ (by norm_num)
  have h4 : (sx s.coef.h4).toInt = Ref.x s 15 := sx_toInt _ (by norm_num)
  have h5 : (sx s.coef.h5).toInt = Ref.x s 16 := sx_toInt _ (by norm_num)
  have h6 := h6Operand_toInt s
  have c1 : (76800 : S32).toInt = 76800 := by decide
  have c2 : (16384 : S32).toInt = 16384 := by decide
  have c3 : (32768 : S32).toInt = 32768 := by decide
  have c4 : (2097152 : S32).toInt = 2097152 := by decide
  have c5 : (8192 : S32).toInt = 8192 := by decide
  have hc : 0 ≤ (asr (humClamp (humAccumulate raw tf s.h6Signed s.coef).val) 22).toInt := by
    rw [asr_toInt, humClamp_toInt]
    norm_num
    omega
  constructor
  · rw [compensateHum, toNat_of_nonneg hc, asr_toInt, humClamp_toInt]
    simp only [humAccumulate, Ref.hum, adds_spec, subs_spec, muls_spec, shls_spec, asr_toInt, h1, h2, h3, h4, h5, h6, c1, c2,
      c3, c4, c5]
    norm_num
  · simp only [compensateHum, humAccumulate, Ref.hum, Ref.overflowed, anyOvf_cons, anyOvf_nil, adds_spec, subs_spec, muls_spec,
      shls_spec, asr_toInt, h1, h2, h3, h4, h5, h6, c1, c2, c3, c4, c5, List.all_cons, List.all_nil]
    norm_num

/-- COMP_T's body writes a result that is the formula's (42_temperature.md R100). -/
theorem tempBody_spec (s : State) :
    let f := Ref.temp Ref.wrapS (Ref.x s) (Ref.rawT s)
    ∃ r : TempResult, tempBody s = commitTemp r s ∧ r.tFine.toInt = f.tFine ∧ r.temp.toInt = Ref.tenths f.tFine ∧
      r.ovf = Ref.overflowed f.signed [] := by
  have h := compensateTemp_spec (zx (rawT s.win)) s (by rw [rawT_operand]; exact rawT_range s)
  rw [rawT_operand] at h
  exact ⟨_, rfl, h⟩

/-- COMP_P's body writes a result that is the formula's (43_pressure.md R110, R111). -/
theorem pressBody_spec (s : State) :
    let f := Ref.press Ref.wrapS Ref.wrapU (Ref.x s) (Ref.rawP s) s.tFine.toInt
    ∃ r : PressResult, pressBody s = commitPress r s ∧ (r.press.toNat : Int) = f.press ∧
      r.guard = decide (f.denominator = 0) ∧ r.ovf = Ref.overflowed f.signed f.unsigned := by
  have h := compensatePress_spec (zx (rawP s.win)) s.tFine s
  rw [rawP_operand] at h
  exact ⟨_, rfl, h⟩

/-- COMP_H's body writes a result that is the formula's (44_humidity.md R120). -/
theorem humBody_spec (s : State) :
    let f := Ref.hum Ref.wrapS (Ref.x s) (Ref.rawH s) s.tFine.toInt
    ∃ r : HumResult, humBody s = commitHum r s ∧ (r.val.toNat : Int) = f.hum ∧ r.ovf = Ref.overflowed f.signed [] := by
  have h := compensateHum_spec (zx (rawH s.win)) s.tFine s
  rw [rawH_operand] at h
  exact ⟨_, rfl, h⟩

/-- SAMPLE's body writes the three results, the later two computed from the `T_FINE` of the first (45_system.md R131). -/
theorem sampleBody_spec (s : State) :
    let f := Ref.temp Ref.wrapS (Ref.x s) (Ref.rawT s)
    let g := Ref.press Ref.wrapS Ref.wrapU (Ref.x s) (Ref.rawP s) f.tFine
    let h := Ref.hum Ref.wrapS (Ref.x s) (Ref.rawH s) f.tFine
    ∃ (rt : TempResult) (rp : PressResult) (rh : HumResult),
      sampleBody s = commitHum rh (commitPress rp (commitTemp rt s)) ∧
      rt.tFine.toInt = f.tFine ∧ rt.temp.toInt = Ref.tenths f.tFine ∧ rt.ovf = Ref.overflowed f.signed [] ∧
      (rp.press.toNat : Int) = g.press ∧ rp.guard = decide (g.denominator = 0) ∧
      rp.ovf = Ref.overflowed g.signed g.unsigned ∧
      (rh.val.toNat : Int) = h.hum ∧ rh.ovf = Ref.overflowed h.signed [] := by
  obtain ⟨rt, et, t1, t2, t3⟩ := tempBody_spec s
  obtain ⟨rp, ep, p1, p2, p3⟩ := pressBody_spec (commitTemp rt s)
  obtain ⟨rh, eh, h1, h2⟩ := humBody_spec (commitPress rp (commitTemp rt s))
  have x1 : Ref.x (commitTemp rt s) = Ref.x s := rfl
  have x2 : Ref.x (commitPress rp (commitTemp rt s)) = Ref.x s := rfl
  have w1 : Ref.rawP (commitTemp rt s) = Ref.rawP s := rfl
  have w2 : Ref.rawH (commitPress rp (commitTemp rt s)) = Ref.rawH s := rfl
  have f1 : (commitTemp rt s).tFine = rt.tFine := rfl
  have f2 : (commitPress rp (commitTemp rt s)).tFine = rt.tFine := rfl
  rw [x1, w1, f1, t1] at p1 p2 p3
  rw [x2, w2, f2, t1] at h1 h2
  exact ⟨rt, rp, rh, by rw [sampleBody, et, ep, eh], t1, t2, t3, p1, p2, p3, h1, h2⟩

/-- `T_FINE`'s range, whatever overflowed (42_temperature.md R101). -/
theorem temp_range (x : Nat → Int) (raw : Int) :
    -1179648 ≤ (Ref.temp Ref.wrapS x raw).tFine ∧ (Ref.temp Ref.wrapS x raw).tFine ≤ 1179646 := by
  simp only [Ref.temp]
  have r1 := wrapS_div_range ((raw / 8 - x 0 * 2) * x 1) 11 (by norm_num)
  have r2 := wrapS_div_range (Ref.wrapS ((raw / 16 - x 0) * (raw / 16 - x 0)) / 4096 * x 2) 14 (by norm_num)
  norm_num at r1 r2
  omega

/-- A humidity is a percentage (44_humidity.md R121). -/
theorem hum_range (w : Int → Int) (x : Nat → Int) (raw tf : Int) :
    0 ≤ (Ref.hum w x raw tf).hum ∧ (Ref.hum w x raw tf).hum ≤ 100 := by
  simp only [Ref.hum]
  omega

/-- A pressure is a U32 divided by 100, and 0 under the guard (43_pressure.md R110). -/
theorem press_range (x : Nat → Int) (raw tf : Int) :
    let r := Ref.press Ref.wrapS Ref.wrapU x raw tf
    0 ≤ r.press ∧ r.press ≤ 42949672 ∧ (r.denominator = 0 → r.press = 0) := by
  unfold Ref.press
  dsimp only
  split
  · simp
  · rename_i h
    refine ⟨?_, ?_, fun h' => absurd h' h⟩ <;> simp only [Ref.pascal, Ref.wrapU] <;> omega

/-- Where nothing overflowed, no exact result was changed by its wrap (40_arithmetic.md R83). -/
theorem wrap_eq_of_not_overflowed {a b : List Int} (h : Ref.overflowed a b = false) :
    (∀ z ∈ a, Ref.wrapS z = z) ∧ ∀ z ∈ b, Ref.wrapU z = z := by
  unfold Ref.overflowed at h
  simp only [Bool.not_eq_false', Bool.and_eq_true, List.all_eq_true] at h
  exact ⟨fun z hz => wrapS_of_inS (h.1 z hz), fun z hz => wrapU_of_inU (h.2 z hz)⟩

end Sys2Proof.Laws
end

