-- ==== Sys2Proof/Laws/Memory.lean ====
section
/-! SUPPORT. The window: a read after a write, the canonical form kept by every write, and equality of canonical memories from
equality of their bytes. -/

namespace Sys2Proof.Laws

open Sys2Proof.Machine

@[simp] theorem read_nil (a : Nat) : Memory.read [] a = Config.unwrittenByte := rfl

@[simp] theorem read_cons (k : Nat) (v : Byte) (m : Memory) (a : Nat) :
    Memory.read ((k, v) :: m) a = if k = a then v else Memory.read m a := rfl

/-- An address below every listed one is unlisted. -/
theorem read_of_below {m : Memory} {a : Nat} (h : ∀ c ∈ m, a < c.1) : Memory.read m a = Config.unwrittenByte := by
  induction m with
  | nil => rfl
  | cons c m ih =>
    obtain ⟨k, v⟩ := c
    have hk : a < k := h (k, v) (by simp)
    rw [read_cons, if_neg (by omega)]
    exact ih fun c hc => h c (by simp [hc])

theorem sorted_tail {c : Host.Cell} {m : Memory} (h : (c :: m).Pairwise (fun p q => p.1 < q.1)) :
    (∀ d ∈ m, c.1 < d.1) ∧ m.Pairwise (fun p q => p.1 < q.1) := List.pairwise_cons.mp h

/-- A write's own address reads as the byte written, every other as before. -/
theorem read_write {m : Memory} (h : m.Pairwise (fun p q => p.1 < q.1)) (a a' : Nat) (b : Byte) :
    Memory.read (Memory.write m a b) a' = if a = a' then b else Memory.read m a' := by
  induction m with
  | nil =>
    unfold Memory.write
    split <;> simp_all
  | cons c m ih =>
    obtain ⟨k, v⟩ := c
    obtain ⟨hlt, hm⟩ := sorted_tail h
    unfold Memory.write
    split
    · rename_i hak
      have habsent : Memory.read ((k, v) :: m) a = Config.unwrittenByte := by
        apply read_of_below
        intro c hc
        rcases List.mem_cons.mp hc with rfl | hc
        · exact hak
        · exact lt_trans hak (hlt c hc)
      split
      · rename_i hb
        split
        · rename_i haa
          rw [← haa, habsent, hb]
        · rfl
      · rw [read_cons]
    · split
      · rename_i hak
        subst hak
        split
        · rename_i hb
          rw [read_cons]
          split
          · rename_i haa
            rw [← haa, hb]
            exact read_of_below hlt
          · rfl
        · rw [read_cons, read_cons]
          split <;> rfl
      · rename_i h1 h2
        rw [read_cons, read_cons, ih hm]
        split
        · rename_i hka
          rw [if_neg (by omega)]
        · rfl

theorem mem_write {m : Memory} {a : Nat} {b : Byte} {c : Host.Cell} (h : c ∈ Memory.write m a b) :
    c ∈ m ∨ (c = (a, b) ∧ b ≠ Config.unwrittenByte) := by
  induction m with
  | nil =>
    unfold Memory.write at h
    split at h <;> simp_all
  | cons d m ih =>
    obtain ⟨k, v⟩ := d
    unfold Memory.write at h
    split at h
    · split at h
      · exact .inl h
      · rcases List.mem_cons.mp h with rfl | h
        · exact .inr ⟨rfl, ‹_›⟩
        · exact .inl h
    · split at h
      · split at h
        · exact .inl (List.mem_cons_of_mem _ h)
        · rcases List.mem_cons.mp h with rfl | h
          · exact .inr ⟨rfl, ‹_›⟩
          · exact .inl (List.mem_cons_of_mem _ h)
      · rcases List.mem_cons.mp h with rfl | h
        · exact .inl (by simp)
        · rcases ih h with h | h
          · exact .inl (List.mem_cons_of_mem _ h)
          · exact .inr h

theorem sorted_write {m : Memory} (h : m.Pairwise (fun p q => p.1 < q.1)) (a : Nat) (b : Byte) :
    (Memory.write m a b).Pairwise (fun p q => p.1 < q.1) := by
  induction m with
  | nil =>
    unfold Memory.write
    split <;> simp
  | cons c m ih =>
    obtain ⟨k, v⟩ := c
    obtain ⟨hlt, hm⟩ := sorted_tail h
    unfold Memory.write
    split
    · rename_i hak
      split
      · exact h
      · refine List.pairwise_cons.mpr ⟨fun d hd => ?_, h⟩
        rcases List.mem_cons.mp hd with rfl | hd
        · exact hak
        · exact lt_trans hak (hlt d hd)
    · split
      · rename_i hak
        subst hak
        split
        · exact hm
        · exact List.pairwise_cons.mpr ⟨hlt, hm⟩
      · refine List.pairwise_cons.mpr ⟨fun d hd => ?_, ih hm⟩
        rcases mem_write hd with hd | ⟨rfl, -⟩
        · exact hlt d hd
        · show k < a
          omega

/-- Writing a window address keeps the canonical form. -/
theorem wf_write {m : Memory} (h : Memory.wf m) {a : Nat} (ha : (isCalw a || isRaww a) = true) (b : Byte) :
    Memory.wf (Memory.write m a b) := by
  refine ⟨sorted_write h.1 a b, fun c hc => ?_⟩
  rcases mem_write hc with hc | ⟨rfl, hb⟩
  · exact h.2 c hc
  · exact ⟨hb, ha⟩

theorem wf_nil : Memory.wf [] := by decide

@[simp] theorem writeAll_nil (m : Memory) : Memory.writeAll m [] = m := rfl

@[simp] theorem writeAll_cons (m : Memory) (c : Host.Cell) (cs : List Host.Cell) :
    Memory.writeAll m (c :: cs) = Memory.writeAll (Memory.write m c.1 c.2) cs := rfl

theorem sorted_writeAll (cs : List Host.Cell) {m : Memory} (h : m.Pairwise (fun p q => p.1 < q.1)) :
    (Memory.writeAll m cs).Pairwise (fun p q => p.1 < q.1) := by
  induction cs generalizing m with
  | nil => exact h
  | cons c cs ih => exact ih (sorted_write h c.1 c.2)

/-- Writes to window addresses keep the canonical form. -/
theorem wf_writeAll {cs : List Host.Cell} (hcs : ∀ c ∈ cs, (isCalw c.1 || isRaww c.1) = true) {m : Memory}
    (h : Memory.wf m) : Memory.wf (Memory.writeAll m cs) := by
  induction cs generalizing m with
  | nil => exact h
  | cons c cs ih =>
    exact ih (fun d hd => hcs d (by simp [hd])) (wf_write h (hcs c (by simp)) c.2)

/-- An address no write of the list names reads as before. -/
theorem read_writeAll_other (cs : List Host.Cell) {m : Memory} (h : m.Pairwise (fun p q => p.1 < q.1)) {a : Nat}
    (ha : ∀ c ∈ cs, c.1 ≠ a) : Memory.read (Memory.writeAll m cs) a = Memory.read m a := by
  induction cs generalizing m with
  | nil => rfl
  | cons c cs ih =>
    rw [writeAll_cons, ih (sorted_write h _ _) fun d hd => ha d (by simp [hd]), read_write h,
      if_neg (ha c (by simp))]

/-- An address written once reads as the byte written to it. -/
theorem read_writeAll_mem {cs : List Host.Cell} (hn : (cs.map Prod.fst).Nodup) {m : Memory}
    (h : m.Pairwise (fun p q => p.1 < q.1)) {c : Host.Cell} (hc : c ∈ cs) :
    Memory.read (Memory.writeAll m cs) c.1 = c.2 := by
  induction cs generalizing m with
  | nil => simp at hc
  | cons d cs ih =>
    obtain ⟨hd, hn⟩ := List.nodup_cons.mp hn
    rw [writeAll_cons]
    rcases List.mem_cons.mp hc with rfl | hc
    · rw [read_writeAll_other cs (sorted_write h _ _), read_write h, if_pos rfl]
      intro e he hec
      exact hd (hec ▸ List.mem_map_of_mem he)
    · exact ih hn (sorted_write h _ _) hc

/-- A listed address of a canonical memory does not read as an unwritten one. -/
theorem read_mem_ne {m : Memory} (h : Memory.wf m) {c : Host.Cell} (hc : c ∈ m) :
    Memory.read m c.1 = c.2 ∧ c.2 ≠ Config.unwrittenByte := by
  refine ⟨?_, (h.2 c hc).1⟩
  have hs := h.1
  clear h
  induction m with
  | nil => simp at hc
  | cons d m ih =>
    obtain ⟨k, v⟩ := d
    obtain ⟨hlt, hm⟩ := sorted_tail hs
    rw [read_cons]
    rcases List.mem_cons.mp hc with rfl | hc
    · rw [if_pos rfl]
    · rw [if_neg (by have := hlt c hc; simp at this; omega)]
      exact ih hc hm

/-- Canonical memories whose every byte reads the same are the same data. -/
theorem eq_of_read_eq {m m' : Memory} (h : Memory.wf m) (h' : Memory.wf m')
    (hr : ∀ a, Memory.read m a = Memory.read m' a) : m = m' := by
  induction m generalizing m' with
  | nil =>
    cases m' with
    | nil => rfl
    | cons d m' =>
      obtain ⟨e, hne⟩ := read_mem_ne h' (List.mem_cons_self)
      exact absurd (e.symm.trans (hr d.1).symm) hne
  | cons c m ih =>
    obtain ⟨k, v⟩ := c
    cases m' with
    | nil =>
      obtain ⟨e, hne⟩ := read_mem_ne h (List.mem_cons_self)
      exact absurd (e.symm.trans (hr k)) hne
    | cons d m' =>
      obtain ⟨k', v'⟩ := d
      obtain ⟨hlt, hs⟩ := sorted_tail h.1
      obtain ⟨hlt', hs'⟩ := sorted_tail h'.1
      have e1 := (read_mem_ne h (c := (k, v)) (List.mem_cons_self))
      have e2 := (read_mem_ne h' (c := (k', v')) (List.mem_cons_self))
      have hk : k = k' := by
        rcases lt_trichotomy k k' with hkk | hkk | hkk
        · exfalso
          apply e1.2
          rw [← e1.1, hr k]
          apply read_of_below
          intro c hc
          rcases List.mem_cons.mp hc with rfl | hc
          · exact hkk
          · exact lt_trans hkk (hlt' c hc)
        · exact hkk
        · exfalso
          apply e2.2
          rw [← e2.1, ← hr k']
          apply read_of_below
          intro c hc
          rcases List.mem_cons.mp hc with rfl | hc
          · exact hkk
          · exact lt_trans hkk (hlt c hc)
      subst hk
      have hv : v = v' := by
        have := hr k
        rw [read_cons, read_cons, if_pos rfl, if_pos rfl] at this
        exact this
      subst hv
      congr 1
      apply ih ⟨hs, fun c hc => h.2 c (by simp [hc])⟩ ⟨hs', fun c hc => h'.2 c (by simp [hc])⟩
      intro a
      have := hr a
      rw [read_cons, read_cons] at this
      by_cases hka : k = a
      · subst hka
        rw [read_of_below hlt, read_of_below hlt']
      · simpa [hka] using this

end Sys2Proof.Laws
end

