-- ==== Sys2Proof/Laws/Operands.lean ====
section
/-! SUPPORT. Bit fields, bytes of registers and coefficients as integers: cite these instead of unfolding an operand. -/

namespace Sys2Proof.Laws

open Sys2Proof.Machine

theorem append_toNat {n m : Nat} (a : BitVec n) (b : BitVec m) : (a ++ b).toNat = a.toNat * 2 ^ m + b.toNat := by
  rw [BitVec.toNat_append, ← Nat.shiftLeft_add_eq_or_of_lt b.isLt, Nat.shiftLeft_eq]

theorem extract_toNat {n : Nat} (a : BitVec n) (i k : Nat) : (a.extractLsb' i k).toNat = a.toNat / 2 ^ i % 2 ^ k := by
  rw [BitVec.extractLsb'_toNat, Nat.shiftRight_eq_div_pow]

/-- Byte `j` of a register is its quotient by `256^j`, modulo 256. -/
theorem byteOf_toNat {n : Nat} (v : BitVec n) (j : Nat) : (byteOf v j).toNat = v.toNat / 256 ^ j % 256 := by
  rw [byteOf, extract_toNat, pow_mul]
  norm_num

theorem le16_toNat (m : Memory) (a : Nat) :
    ((le16 m a).toNat : Int) = (Memory.read m a).toNat + 256 * (Memory.read m (a + 1)).toNat := by
  rw [le16, append_toNat]
  push_cast
  ring

/-- A two's complement register read as a signed integer is the `sext` of its bits (00_scope.md R8). -/
theorem toInt_eq_sext {n : Nat} (hn : 0 < n) (v : BitVec n) : v.toInt = Ref.sext n v.toNat := by
  unfold Ref.sext
  rw [BitVec.toInt_eq_toNat_cond]
  have h : 2 ^ n = 2 * 2 ^ (n - 1) := by rw [← pow_succ', Nat.sub_add_cancel hn]
  have hv := v.isLt
  have e : ((2 : Int) ^ (n - 1)) = ((2 ^ (n - 1) : Nat) : Int) := by push_cast; rfl
  have e' : ((2 : Int) ^ n) = ((2 ^ n : Nat) : Int) := by push_cast; rfl
  rw [e, e']
  split <;> split <;> first | rfl | (exfalso; omega)

/-- The bits of a two's complement register are its signed value modulo `2^n`. -/
theorem toNat_eq_toInt_mod {n : Nat} (v : BitVec n) : (v.toNat : Int) = v.toInt % 2 ^ n := by
  rw [BitVec.toInt_eq_toNat_cond]
  have hv := v.isLt
  have e' : ((2 : Int) ^ n) = ((2 ^ n : Nat) : Int) := by push_cast; rfl
  rw [e']
  split
  · exact (Int.emod_eq_of_lt (by omega) (by exact_mod_cast hv)).symm
  · rw [Int.sub_emod_right]
    exact (Int.emod_eq_of_lt (by omega) (by exact_mod_cast hv)).symm

theorem toInt16_range (v : BitVec 16) : -32768 ≤ v.toInt ∧ v.toInt ≤ 32767 := by
  have h1 := BitVec.toInt_lt (x := v)
  have h2 := BitVec.le_toInt (x := v)
  norm_num at h1 h2
  omega

/-- The word of COEF_RB is `x[i] mod 2^16` (10_state.md R13). -/
theorem coefWord_toNat (s : State) (i : Nat) : ((coefWord s.h6Signed s.coef i).toNat : Int) = Ref.x s i % 65536 := by
  have u8 : ∀ v : BitVec 8, ((v.setWidth 16).toNat : Int) = (v.toNat : Int) % 65536 := by
    intro v
    have := v.isLt
    rw [BitVec.toNat_setWidth]
    omega
  have se : ∀ {n : Nat} (v : BitVec n), n ≤ 16 → ((v.signExtend 16).toNat : Int) = v.toInt % 65536 := by
    intro n v hn
    have h := toNat_eq_toInt_mod (v.signExtend 16)
    rw [BitVec.toInt_signExtend_of_le hn] at h
    norm_num at h
    exact h
  have s16 : ∀ v : BitVec 16, (v.toNat : Int) = v.toInt % 65536 := fun v => by simpa using toNat_eq_toInt_mod v
  have u16 : ∀ v : BitVec 16, (v.toNat : Int) = (v.toNat : Int) % 65536 := by
    intro v
    have := v.isLt
    omega
  have h6 : ((if s.h6Signed then s.coef.h6.signExtend 16 else s.coef.h6.setWidth 16 : BitVec 16).toNat : Int) =
      (if s.h6Signed then s.coef.h6.toInt else (s.coef.h6.toNat : Int)) % 65536 := by
    split
    · exact se _ (by norm_num)
    · exact u8 _
  rcases Nat.lt_or_ge i 18 with h | h
  · unfold coefWord Ref.x
    interval_cases i <;>
      first
      | exact s16 _
      | exact u16 _
      | exact u8 _
      | exact se _ (by norm_num)
      | exact h6
  · obtain ⟨k, rfl⟩ := Nat.exists_eq_add_of_le' h
    show ((0 : BitVec 16).toNat : Int) = 0 % 65536
    decide

end Sys2Proof.Laws
end

