-- ==== Sys2Proof/Laws/PerInstr.lean ====
section
/-! SUPPORT. Facts said of every command, one lemma per constructor. -/

namespace Sys2Proof.Laws

/-- Every command is well formed, its byte has the format CMD8 (30_encoding.md R60), and decoding its byte gives it back. -/
def Encoding.Statement (i : Instr) : Prop :=
  Instr.wf i = true ∧ CommandByte.wf (encode i) = true ∧ Sys2Proof.decode (encode i) = .ok i

theorem Encoding.nop : Encoding.Statement .nop := ⟨rfl, by decide, by decide⟩
theorem Encoding.decode : Encoding.Statement .decode := ⟨rfl, by decide, by decide⟩
theorem Encoding.encode : Encoding.Statement .encode := ⟨rfl, by decide, by decide⟩
theorem Encoding.compT : Encoding.Statement .compT := ⟨rfl, by decide, by decide⟩
theorem Encoding.compP : Encoding.Statement .compP := ⟨rfl, by decide, by decide⟩
theorem Encoding.compH : Encoding.Statement .compH := ⟨rfl, by decide, by decide⟩
theorem Encoding.sample : Encoding.Statement .sample := ⟨rfl, by decide, by decide⟩
theorem Encoding.reset : Encoding.Statement .reset := ⟨rfl, by decide, by decide⟩

end Sys2Proof.Laws
end

