-- ==== Sys2Proof/Laws/Step.lean ====
section
/-! SUPPORT. What a command, a transaction and a step can do, said once: every proof about `exec` or `step` starts here. -/

namespace Sys2Proof.Laws

open Sys2Proof.Machine

/-- What is left of a command once its sequence check passes: its body. -/
def body : Instr → State → State
  | .nop => id
  | .decode => decodeBody
  | .encode => encodeBody
  | .compT => tempBody
  | .compP => pressBody
  | .compH => humBody
  | .sample => sampleBody
  | .reset => toReset

/-- Whether a command's sequence check refuses it (30_encoding.md R63 steps 4 and 5). -/
def refusedForSequence (i : Instr) (s : State) : Bool :=
  match i with
  | .nop => false
  | .decode => s.status.calValid
  | .encode => !s.status.calValid
  | .compT => !s.status.calValid
  | .compP => !s.status.calValid
  | .compH => !s.status.calValid
  | .sample => !s.status.calValid
  | .reset => false

/-- A command either is refused for its place in the sequence, one flag set, or its body runs. -/
theorem exec_eq (i : Instr) (s : State) :
    exec i s = .next (if refusedForSequence i s then raise .errSeq s else body i s) := by
  cases i <;>
    simp only [exec, execNop, execDecode, execEncode, execCompT, execCompP, execCompH, execSample, execReset,
      ifCalibrated, ifUncalibrated, refusedForSequence, body, id, Bool.false_eq_true, if_false] <;>
    by_cases h : s.status.calValid = true <;> simp [h]

/-- A command whose sequence check passes runs its body. -/
theorem exec_runs {i : Instr} {s : State} (h : refusedForSequence i s = false) : exec i s = .next (body i s) := by
  rw [exec_eq, h]
  rfl

/-- A command whose sequence check fails sets ERR_SEQ and nothing else. -/
theorem exec_refused {i : Instr} {s : State} (h : refusedForSequence i s = true) :
    exec i s = .next { s with errstat := { s.errstat with errSeq := true } } := by
  rw [exec_eq, h]
  rfl

/-- What a write of `d` to CMD leaves. -/
def afterCommand (d : Byte) (s : State) : State :=
  match decode d with
  | .ok i => if refusedForSequence i s then raise .errSeq s else body i s
  | .error _ => raise .errCmd s

theorem command_eq (d : Byte) (s : State) : command d s = .next (afterCommand d s) := by
  unfold command afterCommand
  cases decode d with
  | ok i => exact exec_eq i s
  | error e => rfl

/-- What a transaction leaves of the state it acts on. -/
def after (t : Transaction) (s : State) : State :=
  match t with
  | .reset => toReset s
  | .read a => hostRead a s
  | .write a d =>
    match place a.toNat with
    | .cmd => afterCommand d s
    | .calw => { s with win := Memory.write s.win a.toNat d }
    | .raww => { s with win := Memory.write s.win a.toNat d }
    | .status => raise .errAddr s
    | .errstat => raise .errAddr s
    | .tFine _ => raise .errAddr s
    | .temp _ => raise .errAddr s
    | .press _ => raise .errAddr s
    | .hum _ => raise .errAddr s
    | .coef _ _ => raise .errAddr s
    | .reserved => raise .errAddr s

theorem perform_eq (t : Transaction) (s : State) : perform t s = .next (after t s) := by
  cases t with
  | reset => rfl
  | read a => rfl
  | write a d =>
    simp only [perform, hostWrite, after]
    cases place a.toNat <;> first | exact command_eq d s | rfl

/-- With nothing pending the block idles. -/
theorem step_nil {s : State} (h : s.pending = []) : step s = .next s := by
  rw [step, performNext, h]

/-- Otherwise the oldest transaction is performed. -/
theorem step_cons {s : State} {t : Transaction} {rest : List Transaction} (h : s.pending = t :: rest) :
    step s = .next (after t (Ref.popped s rest)) := by
  rw [step, performNext, h]
  exact perform_eq t _

/-- Everything a step can be. -/
theorem step_cases {s s' : State} (h : step s = .next s') :
    (s.pending = [] ∧ s' = s) ∨
      ∃ t rest, s.pending = t :: rest ∧ s' = after t (Ref.popped s rest) := by
  cases hp : s.pending with
  | nil =>
    rw [step_nil hp] at h
    exact .inl ⟨rfl, (Host.Outcome.next.inj h).symm⟩
  | cons t rest =>
    rw [step_cons hp] at h
    exact .inr ⟨t, rest, rfl, (Host.Outcome.next.inj h).symm⟩

/-- What a read leaves: its answer, and ERR_ADDR at a reserved address (20_memory.md R44). -/
theorem hostRead_eq (a : Byte) (s : State) :
    hostRead a s =
      if place a.toNat = .reserved then { raise .errAddr s with reply := some 0 }
      else { s with reply := some (readAnswer a s) } := by
  unfold hostRead readEffect readAnswer
  cases place a.toNat <;> simp

theorem isCalw_iff (a : Nat) : isCalw a = true ↔ Ref.calw a := by
  unfold isCalw Ref.calw
  rw [Bool.or_eq_true, Bool.or_eq_true, decide_eq_true_iff, decide_eq_true_iff, decide_eq_true_iff, or_assoc]

theorem isRaww_iff (a : Nat) : isRaww a = true ↔ Ref.raww a := by
  unfold isRaww Ref.raww
  rw [decide_eq_true_iff]

/-- What stands at each of the 256 addresses (20_memory.md R42). -/
theorem place_cases (a : Byte) :
    (place a.toNat = .cmd ∧ a = 0x00#8) ∨ (place a.toNat = .status ∧ a = 0x01#8) ∨
    (place a.toNat = .errstat ∧ a = 0x02#8) ∨
    (∃ j : Fin 4, place a.toNat = .tFine j ∧ a.toNat = 0x04 + j) ∨
    (∃ j : Fin 4, place a.toNat = .temp j ∧ a.toNat = 0x08 + j) ∨
    (∃ j : Fin 4, place a.toNat = .press j ∧ a.toNat = 0x0C + j) ∨
    (∃ j : Fin 4, place a.toNat = .hum j ∧ a.toNat = 0x10 + j) ∨
    (∃ (i : Fin 18) (j : Fin 2), place a.toNat = .coef i j ∧ a.toNat = 0x20 + 2 * i + j) ∨
    (place a.toNat = .calw ∧ Ref.calw a.toNat) ∨ (place a.toNat = .raww ∧ Ref.raww a.toNat) ∨
    (place a.toNat = .reserved ∧ Ref.reserved a.toNat) := by
  revert a
  decide +kernel

/-- The command bytes, by number (30_encoding.md R61, R62). -/
theorem decode_byte (d : Byte) :
    decode d =
      match d.toNat with
      | 0 => .ok .nop
      | 1 => .ok .decode
      | 2 => .ok .encode
      | 3 => .ok .compT
      | 4 => .ok .compP
      | 5 => .ok .compH
      | 6 => .ok .sample
      | 7 => .ok .reset
      | _ => .error (.reservedCommand d) := by
  revert d
  decide

/-- A byte past the eight is reserved. -/
theorem decode_reserved {d : Byte} (h : 8 ≤ d.toNat) : decode d = .error (.reservedCommand d) := by
  rw [decode_byte]
  split <;> first | omega | rfl

/-- What a write to CMD can do. -/
theorem afterCommand_cases (d : Byte) (u : State) :
    (8 ≤ d.toNat ∧ afterCommand d u = raise .errCmd u) ∨
      ∃ i, encode i = d ∧ afterCommand d u = if refusedForSequence i u then raise .errSeq u else body i u := by
  rcases Nat.lt_or_ge d.toNat 8 with h | h
  · right
    have named : ∀ d : Byte, d.toNat < 8 →
        ∃ i ∈ opcodeMap.map OpcodeRow.instr, encode i = d ∧ (decode d).toOption = some i := by
      decide +kernel
    obtain ⟨i, -, he, hd⟩ := named d h
    refine ⟨i, he, ?_⟩
    unfold afterCommand
    cases hx : decode d with
    | error e => simp [hx, Except.toOption] at hd
    | ok j =>
      simp only [hx, Except.toOption, Option.some.injEq] at hd
      subst hd
      rfl
  · left
    refine ⟨h, ?_⟩
    unfold afterCommand
    rw [decode_reserved h]

theorem place_reserved_iff (a : Byte) : place a.toNat = .reserved ↔ Ref.reserved a.toNat := by
  have := place_cases a
  unfold Ref.calw Ref.raww Ref.reserved at *
  rcases this with ⟨h, rfl⟩ | ⟨h, rfl⟩ | ⟨h, rfl⟩ | ⟨j, h, e⟩ | ⟨j, h, e⟩ | ⟨j, h, e⟩ | ⟨j, h, e⟩ | ⟨i, j, h, e⟩ |
    ⟨h, e⟩ | ⟨h, e⟩ | ⟨h, e⟩ <;> rw [h] <;> simp <;> omega

theorem place_window_iff (a : Byte) :
    (place a.toNat = .calw ∨ place a.toNat = .raww) ↔ (Ref.calw a.toNat ∨ Ref.raww a.toNat) := by
  have := place_cases a
  unfold Ref.calw Ref.raww Ref.reserved at *
  rcases this with ⟨h, rfl⟩ | ⟨h, rfl⟩ | ⟨h, rfl⟩ | ⟨j, h, e⟩ | ⟨j, h, e⟩ | ⟨j, h, e⟩ | ⟨j, h, e⟩ | ⟨i, j, h, e⟩ |
    ⟨h, e⟩ | ⟨h, e⟩ | ⟨h, e⟩ <;> rw [h] <;> simp <;> omega

/-- A write outside the window and CMD is refused. -/
theorem after_write_refused {a : Byte} (h0 : a.toNat ≠ 0) (hw : ¬ (Ref.calw a.toNat ∨ Ref.raww a.toNat)) (d : Byte)
    (u : State) : after (.write a d) u = raise .errAddr u := by
  rcases place_cases a with ⟨h, rfl⟩ | ⟨h, rfl⟩ | ⟨h, rfl⟩ | ⟨j, h, e⟩ | ⟨j, h, e⟩ | ⟨j, h, e⟩ | ⟨j, h, e⟩ |
    ⟨i, j, h, e⟩ | ⟨h, e⟩ | ⟨h, e⟩ | ⟨h, e⟩ <;>
    first
    | exact absurd rfl h0
    | exact absurd (Or.inl e) hw
    | exact absurd (Or.inr e) hw
    | simp only [after, h]

/-- A write to the window changes it alone. -/
theorem after_write_window {a : Byte} (hw : Ref.calw a.toNat ∨ Ref.raww a.toNat) (d : Byte) (u : State) :
    after (.write a d) u = { u with win := Memory.write u.win a.toNat d } := by
  rcases (place_window_iff a).mpr hw with h | h <;> simp only [after, h]

/-- Everything a transaction can be and leave: a reset, a read, a refused read, a window write, the three refused writes in
the order of 60_exceptions.md R148, a command that runs. -/
theorem after_cases (t : Transaction) (u : State) :
    (Ref.resets t ∧ after t u = toReset u) ∨
    (∃ a, t = .read a ∧ ¬ Ref.reserved a.toNat ∧ after t u = { u with reply := some (readAnswer a u) }) ∨
    (∃ a, t = .read a ∧ Ref.reserved a.toNat ∧ after t u = { raise .errAddr u with reply := some 0 }) ∨
    (∃ a d, t = .write a d ∧ (Ref.calw a.toNat ∨ Ref.raww a.toNat) ∧
      after t u = { u with win := Memory.write u.win a.toNat d }) ∨
    (∃ a d, t = .write a d ∧ a.toNat ≠ 0 ∧ ¬ (Ref.calw a.toNat ∨ Ref.raww a.toNat) ∧ after t u = raise .errAddr u) ∨
    (∃ d, t = .write 0x00#8 d ∧ 8 ≤ d.toNat ∧ after t u = raise .errCmd u) ∨
    (∃ i, t = .write 0x00#8 (encode i) ∧ i ≠ .reset ∧ refusedForSequence i u = true ∧ after t u = raise .errSeq u) ∨
    (∃ i, t = .write 0x00#8 (encode i) ∧ i ≠ .reset ∧ refusedForSequence i u = false ∧ after t u = body i u) := by
  cases t with
  | reset => exact .inl ⟨.inl rfl, rfl⟩
  | read a =>
    right
    have h := hostRead_eq a u
    by_cases hr : place a.toNat = .reserved
    · rw [if_pos hr] at h
      exact .inr (.inl ⟨a, rfl, (place_reserved_iff a).mp hr, h⟩)
    · rw [if_neg hr] at h
      exact .inl ⟨a, rfl, fun h' => hr ((place_reserved_iff a).mpr h'), h⟩
  | write a d =>
    by_cases hw : Ref.calw a.toNat ∨ Ref.raww a.toNat
    · exact .inr (.inr (.inr (.inl ⟨a, d, rfl, hw, after_write_window hw d u⟩)))
    · by_cases h0 : a.toNat = 0
      · have ha : a = 0x00#8 := BitVec.eq_of_toNat_eq h0
        subst ha
        have hc : after (.write 0x00#8 d) u = afterCommand d u := by
          simp only [after]
          rw [show place (0x00#8).toNat = .cmd by decide]
        rw [hc]
        rcases afterCommand_cases d u with ⟨h8, e⟩ | ⟨i, rfl, e⟩
        · exact .inr (.inr (.inr (.inr (.inr (.inl ⟨d, rfl, h8, e⟩)))))
        · by_cases hi : i = .reset
          · subst hi
            exact .inl ⟨.inr rfl, e⟩
          · cases hr : refusedForSequence i u <;> rw [hr] at e
            · exact .inr (.inr (.inr (.inr (.inr (.inr (.inr ⟨i, rfl, hi, hr, e⟩))))))
            · exact .inr (.inr (.inr (.inr (.inr (.inr (.inl ⟨i, rfl, hi, hr, e⟩))))))
      · exact .inr (.inr (.inr (.inr (.inl ⟨a, d, rfl, h0, hw, after_write_refused h0 hw d u⟩))))

end Sys2Proof.Laws
end

