-- ==== Sys2Proof/Tests/Slice0.lean ====
section
/-! SUPPORT. The model's own tests, each about one step, with expected values from spec/95_test_vectors.md and the rules; and
for every statement with hypotheses a witness that meets them, clause by clause, at the ends of their ranges. -/

namespace Sys2Proof.Tests

open Sys2Proof.Machine

/-! ### Small states -/

/-- The spec's example calibration, "DS" (95_test_vectors.md). -/
def ds : Coefs where
  t1 := 27504
  t2 := 26435
  t3 := BitVec.ofInt 16 (-1000)
  p1 := 36477
  p2 := BitVec.ofInt 16 (-10685)
  p3 := 3024
  p4 := 2855
  p5 := 140
  p6 := BitVec.ofInt 16 (-7)
  p7 := 15500
  p8 := BitVec.ofInt 16 (-14600)
  p9 := 6000
  h1 := 75
  h2 := 367
  h3 := 0
  h4 := 301
  h5 := 50
  h6 := 30

/-- A window that holds `rawP = 415148`, `rawT = 519888`, `rawH = 30000` (vectors V-R6, V-R1, V-R8). -/
def samples : Memory :=
  [(0xF7, 0x65#8), (0xF8, 0x5A#8), (0xF9, 0xC0#8), (0xFA, 0x7E#8), (0xFB, 0xED#8), (0xFD, 0x75#8), (0xFE, 0x30#8)]

/-- The block with a coefficient file decoded, a window, a `T_FINE`, and whether a temperature has been computed. -/
def decoded (c : Coefs) (w : Memory) (tf : Int) (tValid : Bool) : State :=
  { State.reset with
    win := w
    coef := c
    tFine := BitVec.ofInt 32 tf
    status := { State.reset.status with calValid := true, tValid := tValid } }

/-- The DS calibration and samples, before any temperature. -/
def dsCold : State := decoded ds samples 0 false

/-- The same, with the `T_FINE` of vector V-T1. -/
def dsWarm : State := decoded ds samples 128422 true

/-- The same with transactions of the host's to come. -/
def asked (ts : List Transaction) : State := { dsWarm with pending := ts }

/-- What a field of the next state is; nothing where there is no next state. -/
def see {α : Type} (o : Host.Outcome State Fault Refusal) (f : State → α) : Option α :=
  match o with
  | .next t => some (f t)
  | .fault _ => none
  | .refused _ => none

/-! ### Ill-formed bytes, and the encoding bit by bit (30_encoding.md R60 to R62) -/

theorem test_wf_rejects_a_high_bit :
    CommandByte.wf 0b00001000#8 = false ∧ CommandByte.wf 0b10000111#8 = false ∧ CommandByte.wf 0b00000111#8 = true := by
  decide

theorem test_decode_rejects_reserved :
    decode 0b00001000#8 = .error (.reservedCommand 0x08#8) ∧ decode 0b00001011#8 = .error (.reservedCommand 0x0B#8) ∧
      decode 0b11111111#8 = .error (.reservedCommand 0xFF#8) := by
  decide

theorem test_decode_words :
    decode 0b00000000#8 = .ok .nop ∧ decode 0b00000001#8 = .ok .decode ∧ decode 0b00000010#8 = .ok .encode ∧
      decode 0b00000011#8 = .ok .compT ∧ decode 0b00000100#8 = .ok .compP ∧ decode 0b00000101#8 = .ok .compH ∧
      decode 0b00000110#8 = .ok .sample ∧ decode 0b00000111#8 = .ok .reset := by
  decide

/-- No byte matches two rows of the opcode map. -/
theorem test_opcode_rows_do_not_overlap :
    opcodeMap.Pairwise (fun r q => r.pattern &&& (r.mask &&& q.mask) ≠ q.pattern &&& (r.mask &&& q.mask)) := by
  decide

theorem test_table_word :
    decodeTableWord 8 0x05 = some .compH ∧ decodeTableWord 8 0x0D = none ∧ decodeTableWord 16 0x105 = none := by
  decide

/-! ### One step of each command (expected values: 95_test_vectors.md) -/

/-- V-S1. -/
theorem test_nop : exec .nop dsWarm = .next dsWarm := rfl

/-- V-D7, both packed coefficients: `E4 E5 E6 = FF E0 80` are H4 = -16 and H5 = -2034. -/
theorem test_decode_packed :
    see (exec .decode { State.reset with win := [(0xE4, 0xFF#8), (0xE5, 0xE0#8), (0xE6, 0x80#8)] })
      (fun t => (Ref.x t 15, Ref.x t 16, t.status.calValid)) = some (-16, -2034, true) := by
  decide +kernel

/-- V-D1 and V-D13: low byte first, and H6 under `H6_SIGNED`. -/
theorem test_decode_order_and_sign :
    see (exec .decode { State.reset with win := [(0x88, 0x34#8), (0x89, 0x6B#8), (0xE7, 0x80#8)], h6Signed := true })
      (fun t => (Ref.x t 0, Ref.x t 17)) = some (27444, -128) := by
  decide +kernel

/-- The DS calibration bytes at the head of 95_test_vectors.md: V-E2's T3, and the packed block. -/
theorem test_encode_bytes :
    see (exec .encode dsWarm) (fun t => [0x8C, 0x8D, 0xA1, 0xE1, 0xE2, 0xE3, 0xE4, 0xE5, 0xE6, 0xE7].map (Memory.read t.win)) =
      some [0x18#8, 0xFC#8, 0x4B#8, 0x6F#8, 0x01#8, 0x00#8, 0x12#8, 0x2D#8, 0x03#8, 0x1E#8] := by
  decide +kernel

/-- V-E4: refused, and the window as it was. -/
theorem test_encode_refused :
    see (exec .encode { State.reset with win := samples }) (fun t => (t.errstat.byte, t.win)) =
      some (0x08#8, samples) := by
  decide +kernel

/-- V-T2: a negative temperature, truncated toward zero. -/
theorem test_compT_negative :
    see (exec .compT (decoded ds [(0xFA, 0x66#8), (0xFB, 0x4B#8), (0xFC, 0x8F#8)] 0 false))
      (fun t => (t.tFine.toInt, t.temp.toInt, t.errstat.byte)) = some (-34013, -66, 0x00#8) := by
  decide +kernel

/-- V-T9: products that overflow are truncated before they are shifted. -/
theorem test_compT_overflow :
    see (exec .compT (decoded { ds with t1 := 0xFFFF, t2 := 0x8000, t3 := 0x8000 } [] 0 false))
      (fun t => (t.tFine.toInt, t.temp.toInt, t.errstat.byte)) = some (32, 0, 0x01#8) := by
  decide +kernel

/-- V-P1, the low branch. -/
theorem test_compP_low :
    see (exec .compP dsWarm) (fun t => (t.press.toNat, t.status.byte, t.errstat.byte)) = some (1006, 0x07#8, 0x00#8) := by
  decide +kernel

/-- V-P13, the high branch, its product wrapped; and V-P2's missing temperature, in the same flags. -/
theorem test_compP_high :
    see (exec .compP (decoded { Coefs.reset with p1 := 1 } [] 0 false)) (fun t => (t.press.toNat, t.errstat.byte)) =
      some (22586327, 0x03#8) := by
  decide +kernel

/-- V-H6: H6 = -30 under `H6_SIGNED`. -/
theorem test_compH_signed :
    see (exec .compH { decoded { ds with h6 := 0xE2 } samples 128422 true with h6Signed := true })
      (fun t => (t.hum.toNat, t.errstat.byte)) = some (57, 0x00#8) := by
  decide +kernel

/-- V-H7: the accumulator wraps to a negative number and is clamped to 0. -/
theorem test_compH_clamped :
    see (exec .compH (decoded { ds with h2 := 0x8000, h4 := 0x7FF, h5 := 0x7FF } [(0xFD, 0xFF#8), (0xFE, 0xFF#8)] 128422 true))
      (fun t => (t.hum.toNat, t.errstat.byte)) = some (0, 0x01#8) := by
  decide +kernel

/-- V-S3. -/
theorem test_sample :
    see (exec .sample dsCold) (fun t => (t.tFine.toInt, t.temp.toInt, t.press.toNat, t.hum.toNat, t.status.byte, t.errstat.byte)) =
      some (128422, 250, 1006, 60, 0x0F#8, 0x00#8) := by
  decide +kernel

/-- V-S5: the guard ends the pressure part alone. -/
theorem test_sample_guarded :
    see (exec .sample (decoded { ds with p1 := 0 } samples 0 false))
      (fun t => (t.temp.toInt, t.press.toNat, t.hum.toNat, t.status.byte, t.errstat.byte)) =
      some (250, 0, 60, 0x1F#8, 0x00#8) := by
  decide +kernel

/-- V-S6. -/
theorem test_reset : exec .reset dsWarm = .next State.reset := rfl

/-! ### The host interface and the primitives -/

/-- V-S12: `T_FINE = -34013` reads `23 7B FF FF`. -/
theorem test_read_negative :
    [0x04#8, 0x05#8, 0x06#8, 0x07#8].map (fun a => readAnswer a (decoded ds [] (-34013) true)) =
      [0x23#8, 0x7B#8, 0xFF#8, 0xFF#8] := by
  decide +kernel

/-- The images of H4 = -2048 and, under `H6_SIGNED`, of H6 = -30 (95_test_vectors.md, after V-D16). -/
theorem test_read_images :
    [0x3E#8, 0x3F#8, 0x42#8, 0x43#8].map
      (fun a => readAnswer a { decoded { ds with h4 := 0x800, h6 := 0xE2 } [] 0 true with h6Signed := true }) =
      [0x00#8, 0xF8#8, 0xE2#8, 0xFF#8] := by
  decide +kernel

/-- V-S11, V-S9: the sensor's control register is not in the block; a refused read answers 0. -/
theorem test_refused_accesses :
    see (step (asked [.write 0xF2#8 0x01#8])) (fun t => (t.errstat.byte, t.win)) = some (0x10#8, samples) ∧
      see (step (asked [.read 0x44#8])) (fun t => (t.errstat.byte, t.reply)) = some (0x10#8, some 0x00#8) ∧
      see (step (asked [.write 0x00#8 0x0B#8])) (fun t => (t.errstat.byte, t.tFine)) = some (0x04#8, dsWarm.tFine) := by
  decide +kernel

/-- V-A9, V-A11, V-A17: exact results truncated to 32 bits and reported. -/
theorem test_signed_overflow :
    muls (BitVec.ofInt 32 (-65535)) (BitVec.ofInt 32 (-65535)) = { val := BitVec.ofInt 32 (-131071), ovf := true } ∧
      muls 46341 46341 = { val := BitVec.ofInt 32 (-2147479015), ovf := true } ∧
      shls 2048 20 = { val := BitVec.ofInt 32 (-2147483648), ovf := true } := by
  decide +kernel

/-- V-A23, V-A33, V-A42, V-A55: floor, truncation, the unsigned wrap, a negative number read as unsigned. -/
theorem test_rounding_and_unsigned :
    asr (BitVec.ofInt 32 (-592)) 8 = BitVec.ofInt 32 (-3) ∧ divs (BitVec.ofInt 32 (-9)) 10 = 0 ∧
      mulu 3276800000 2 = { val := 2258632704, ovf := true } ∧
      s2u (BitVec.ofInt 32 (-45682)) = { val := 4294921614, ovf := true } := by
  decide +kernel

/-! ### Witnesses: states and operands that meet each statement's hypotheses -/

/-- WriteGoesByTheMap, window addresses at the ends of their ranges. -/
theorem witness_write_window :
    ∀ a ∈ [0x88#8, 0x9F#8, 0xA1#8, 0xE1#8, 0xE7#8, 0xF7#8, 0xFE#8],
      (asked [.write a 0x5A#8]).pending = .write a 0x5A#8 :: [] ∧ Memory.wf (asked [.write a 0x5A#8]).win ∧
        (Ref.calw a.toNat ∨ Ref.raww a.toNat) := by
  decide

/-- WriteGoesByTheMap, refused addresses, next to the window and in it. -/
theorem witness_write_refused :
    ∀ a ∈ [0x01#8, 0x43#8, 0x87#8, 0xA0#8, 0xA2#8, 0xE0#8, 0xE8#8, 0xF6#8, 0xFF#8],
      (asked [.write a 0x5A#8]).pending = .write a 0x5A#8 :: [] ∧ Memory.wf (asked [.write a 0x5A#8]).win ∧
        a.toNat ≠ 0 ∧ ¬ (Ref.calw a.toNat ∨ Ref.raww a.toNat) := by
  decide

/-- WriteGoesByTheMap at CMD, the last command and the first and last reserved bytes. -/
theorem witness_write_cmd :
    (asked [.write 0x00#8 0x07#8]).pending = .write 0x00#8 0x07#8 :: [] ∧ Memory.wf dsWarm.win ∧
      decode 0x07#8 = .ok .reset ∧ (0x00#8).toNat = 0 ∧ 8 ≤ (0x08#8).toNat ∧ 8 ≤ (0xFF#8).toNat := by
  decide

/-- ReadAnswersByTheMap: the ends of every row's range; each address falls under one row. -/
theorem witness_read_rows :
    (asked [.read 0x04#8]).pending = .read 0x04#8 :: [] ∧
      (∀ n ∈ ([0x04, 0x07] : List Nat), 0x04 ≤ n ∧ n ≤ 0x07) ∧ (∀ n ∈ ([0x08, 0x0B] : List Nat), 0x08 ≤ n ∧ n ≤ 0x0B) ∧
      (∀ n ∈ ([0x0C, 0x0F] : List Nat), 0x0C ≤ n ∧ n ≤ 0x0F) ∧ (∀ n ∈ ([0x10, 0x13] : List Nat), 0x10 ≤ n ∧ n ≤ 0x13) ∧
      (∀ n ∈ ([0x20, 0x43] : List Nat), 0x20 ≤ n ∧ n ≤ 0x43) ∧ (∀ n ∈ ([0x88, 0x9F, 0xA1, 0xE1, 0xE7, 0xF7, 0xFE] : List Nat), Ref.calw n ∨ Ref.raww n) ∧
      (∀ n ∈ ([0x03, 0x14, 0x1F, 0x44, 0x87, 0xA0, 0xA2, 0xE0, 0xE8, 0xF6, 0xFF] : List Nat), Ref.reserved n) ∧
      ∀ n : Fin 256, ¬ (Ref.reserved n.val ∧ (Ref.calw n.val ∨ Ref.raww n.val)) := by
  decide +kernel

/-- RegistersReadLittleEndian: the four reads of `T_FINE` and of `HUM`, and the first and last coefficient. -/
theorem witness_little_endian :
    (asked [.read 0x04#8, .read 0x05#8, .read 0x06#8, .read 0x07#8]).pending =
        .read 0x04#8 :: .read (0x04#8 + 1) :: .read (0x04#8 + 2) :: .read (0x04#8 + 3) :: [] ∧
      (asked [.read 0x10#8, .read 0x11#8, .read 0x12#8, .read 0x13#8]).pending =
        .read 0x10#8 :: .read (0x10#8 + 1) :: .read (0x10#8 + 2) :: .read (0x10#8 + 3) :: [] ∧
      (asked [.read 0x20#8, .read 0x21#8]).pending =
        .read (BitVec.ofNat 8 (0x20 + 2 * 0)) :: .read (BitVec.ofNat 8 (0x21 + 2 * 0)) :: [] ∧
      (asked [.read 0x42#8, .read 0x43#8]).pending =
        .read (BitVec.ofNat 8 (0x20 + 2 * 17)) :: .read (BitVec.ofNat 8 (0x21 + 2 * 17)) :: [] ∧
      Ref.x dsWarm 0 < 32768 ∧ ¬ Ref.x (decoded { ds with t1 := 0xFFFF } [] 0 true) 0 < 32768 := by
  decide

/-- CoefficientImageIsTyped: the first and the last coefficient. -/
theorem witness_coefficient_image : (0 : Nat) < 18 ∧ (17 : Nat) < 18 := by decide

/-- ReservedAddressesHoldNothing: the ends of each reserved range. -/
theorem witness_reserved :
    ∀ a ∈ [0x03#8, 0x14#8, 0x1F#8, 0x44#8, 0x87#8, 0xA0#8, 0xA2#8, 0xE0#8, 0xE8#8, 0xF6#8, 0xFF#8],
      Ref.reserved a.toNat ∧ (asked [.write a 0x5A#8, .read a]).pending = .write a 0x5A#8 :: .read a :: [] := by
  decide

/-- DecodeInvertsEncode, StepRunsTheDecodedCommand, PlacedWordRunsNext. -/
theorem witness_decoded :
    decode 0x07#8 = .ok .reset ∧ (asked [.write 0x00#8 0x07#8]).pending = .write 0x00#8 0x07#8 :: [] ∧
      decodeTableWord 8 0x07 = some .reset := by
  decide

/-- EveryTransactionCompletes: nothing pending, a read, a write. -/
theorem witness_transactions :
    (asked []).pending = [] ∧ (asked [.read 0x01#8]).pending = .read 0x01#8 :: [] ∧
      (asked [.write 0x88#8 0x34#8]).pending = .write 0x88#8 0x34#8 :: [] := by
  decide

/-- SignedShiftsAndQuotient, UnsignedArithmeticWraps: the largest shift, the smallest divisor, both signs. -/
theorem witness_shifts :
    31 ≤ 31 ∧ 0 < 1 ∧ 0 ≤ (5 : S32).toInt ∧ (BitVec.ofInt 32 (-1) : S32).toInt < 0 ∧
      (0x7FFFFFFF : U32).toNat < 2 ^ 31 ∧ (1 : U32).toNat ≠ 0 := by
  decide

/-- ArithmeticLaws: 16-bit operands at both ends, two shifts that make 31, a number and its opposite. -/
theorem witness_laws :
    -32768 ≤ (BitVec.ofInt 32 (-32768) : S32).toInt ∧ (BitVec.ofInt 32 (-32768) : S32).toInt ≤ 32767 ∧
      (32767 : S32).toInt ≤ 32767 ∧ 1 + 30 ≤ 31 ∧ 0 < 10 ∧
      (BitVec.ofInt 32 (-2508) : S32).toInt = -(2508 : S32).toInt := by
  decide

/-- DecodeReadsTheCalibration: populated and not, both settings of the parameter, the ends of `k`. -/
theorem witness_decode :
    dsWarm.status.calValid = true ∧ State.reset.status.calValid = false ∧ 2 ≤ 2 ∧ 9 ≤ 9 ∧
      State.reset.h6Signed = false ∧ { State.reset with h6Signed := true }.h6Signed = true := by
  decide

/-- EncodeWritesTheCalibration, and the two outcomes of every command with R63's step 5: calibrated and not, the window
canonical. -/
theorem witness_encode :
    dsWarm.status.calValid = true ∧ Memory.wf dsWarm.win ∧ State.reset.status.calValid = false ∧ ¬ Ref.calw 0xA0 := by
  decide

/-- DecAndEncAreInverse. -/
theorem witness_inverse : Memory.wf samples := by decide

/-- EncodeRestoresDecodedBytes: one host write to a calibration byte between the two commands. -/
theorem witness_restores :
    let s := { State.reset with
      win := samples
      pending := [.write 0x00#8 0x01#8, .write 0xA1#8 0x4B#8, .write 0x00#8 0x02#8, .read 0xA1#8] }
    let writes := [(0xA1#8, 0x4B#8)]
    Memory.wf s.win ∧ s.status.calValid = false ∧ (∀ w ∈ writes, Ref.calw w.1.toNat) ∧
      s.pending = .write 0x00#8 0x01#8 :: (writes.map (fun w => Transaction.write w.1 w.2) ++
        (.write 0x00#8 0x02#8 :: [.read 0xA1#8])) :=
  ⟨by decide, rfl, fun w hw => by obtain rfl := List.mem_singleton.mp hw; decide, rfl⟩

/-- TemperatureBounds: a difference too large to square, and small differences. -/
theorem witness_temperature_bounds :
    (let s := decoded { ds with t1 := 0xFFFF } [] 0 false
     s.status.calValid = true ∧ 46341 ≤ |Ref.rawT s / 16 - Ref.x s 0|) ∧
    dsCold.status.calValid = true ∧ dsCold.errstat.ovf = false ∧ |Ref.rawT dsCold / 8 - 2 * Ref.x dsCold 0| ≤ 65535 ∧
      |Ref.rawT dsCold / 16 - Ref.x dsCold 0| ≤ 16383 := by
  decide

/-- TemperatureIsPure: two states that differ in everything else, and the rule's example. -/
theorem witness_temperature_pure :
    let s' := { decoded { ds with p1 := 0, h6 := 1 } samples 77 true with h6Signed := true }
    dsCold.status.calValid = true ∧ s'.status.calValid = true ∧ Ref.rawT dsCold = Ref.rawT s' ∧
      Ref.x dsCold 0 = Ref.x s' 0 ∧ Ref.x dsCold 1 = Ref.x s' 1 ∧ Ref.x dsCold 2 = Ref.x s' 2 ∧
      dsCold.errstat.ovf = false ∧ s'.errstat.ovf = false ∧
      Ref.rawT dsCold = 519888 ∧ Ref.x dsCold 0 = 27504 ∧ Ref.x dsCold 1 = 26435 ∧ Ref.x dsCold 2 = -1000 := by
  decide

/-- TemperatureExactWithoutOverflow. -/
theorem witness_temperature_exact :
    dsWarm.status.calValid = true ∧ ∃ t, exec .compT dsWarm = .next t ∧ t.errstat.ovf = false :=
  ⟨rfl, Laws.body .compT dsWarm, Laws.exec_runs (by decide), by decide +kernel⟩

/-- ZeroGuardPreventsDivision: `P1` 0 and not 0, and the guard not taken. -/
theorem witness_zero_guard :
    (let s := decoded { ds with p1 := 0 } samples 128422 true
     s.status.calValid = true ∧ Ref.x s 3 = 0 ∧
       see (exec .compP s) (fun t => t.status.pGuard) = some true) ∧
    (let s := decoded { Coefs.reset with p1 := 1, p2 := 0xFFFF } samples 128422 true
     s.status.calValid = true ∧ Ref.x s 3 = 1 ∧ Ref.x s 4 = -1 ∧ Ref.x s 5 = 0 ∧ s.tFine.toInt = 128422) ∧
    dsWarm.status.calValid = true ∧ see (exec .compP dsWarm) (fun t => t.status.pGuard) = some false := by
  decide +kernel

/-- PressureWithoutTemperature: both clauses. -/
theorem witness_pressure_cold :
    dsCold.status.calValid = true ∧ dsCold.status.tValid = false ∧ dsCold.tFine = 0 ∧ Ref.rawP dsCold = 415148 ∧
      Ref.x dsCold 3 = 36477 ∧ Ref.x dsCold 4 = -10685 ∧ Ref.x dsCold 5 = 3024 ∧ Ref.x dsCold 6 = 2855 ∧
      Ref.x dsCold 7 = 140 ∧ Ref.x dsCold 8 = -7 ∧ Ref.x dsCold 9 = 15500 ∧ Ref.x dsCold 10 = -14600 ∧
      Ref.x dsCold 11 = 6000 := by
  decide

/-- PressureExactWithoutOverflow. -/
theorem witness_pressure_exact :
    dsWarm.status.calValid = true ∧ ∃ t, exec .compP dsWarm = .next t ∧ t.errstat.ovf = false :=
  ⟨rfl, Laws.body .compP dsWarm, Laws.exec_runs (by decide), by decide +kernel⟩

/-- HumidityIsClamped: all six coefficients 0. -/
theorem witness_humidity_clamped :
    let s := decoded Coefs.reset samples 128422 true
    s.status.calValid = true ∧ ∀ i ∈ [12, 13, 14, 15, 16, 17], 12 ≤ i ∧ i ≤ 17 ∧ Ref.x s i = 0 := by
  decide

/-- HumidityWithoutTemperature: both clauses. -/
theorem witness_humidity_cold :
    dsCold.status.calValid = true ∧ dsCold.status.tValid = false ∧ dsCold.tFine = 0 ∧ Ref.rawH dsCold = 30000 ∧
      Ref.x dsCold 12 = 75 ∧ Ref.x dsCold 13 = 367 ∧ Ref.x dsCold 14 = 0 ∧ Ref.x dsCold 15 = 301 ∧
      Ref.x dsCold 16 = 50 ∧ Ref.x dsCold 17 = 30 := by
  decide

/-- HumidityExactWithoutOverflow. -/
theorem witness_humidity_exact :
    dsWarm.status.calValid = true ∧ ∃ t, exec .compH dsWarm = .next t ∧ t.errstat.ovf = false :=
  ⟨rfl, Laws.body .compH dsWarm, Laws.exec_runs (by decide), by decide +kernel⟩

/-- A state with every flag of ERRSTAT set. -/
def flagged : State :=
  { dsWarm with errstat := { ovf := true, order := true, errCmd := true, errSeq := true, errAddr := true } }

/-- ResetCommandClearsEverything, its last clause: every flag and CAL_VALID set, kept by a command that is not RESET. -/
theorem witness_flags_kept :
    exec .nop flagged = .next flagged ∧ Instr.nop ≠ .reset ∧ flagged.status.calValid = true ∧
      flagged.errstat.byte = 0x1F#8 :=
  ⟨rfl, by decide, rfl, by decide⟩

/-- ResetForgetsEverything: two unlike states, the one reset by the transaction, the other by the command. -/
theorem witness_resets :
    Ref.resets .reset ∧ Ref.resets (.write 0x00#8 0x07#8) ∧
      (asked [.reset]).h6Signed = { flagged with pending := [.write 0x00#8 0x07#8] }.h6Signed ∧
      (asked [.reset]).pending = .reset :: [] ∧
      { flagged with pending := [.write 0x00#8 0x07#8] }.pending = .write 0x00#8 0x07#8 :: [] := by
  decide

/-- SequenceRefusals: both sides of the check, and a step that raises the flag. -/
theorem witness_sequence :
    dsWarm.status.calValid = true ∧ State.reset.status.calValid = false ∧ State.reset.errstat.errSeq = false ∧
      see (exec .sample State.reset) (fun t => t.errstat.errSeq) = some true ∧
      see (exec .decode dsWarm) (fun t => t.errstat.errSeq) = some true := by
  decide

/-- RefusalsArePrecise: each of the three refusals, a transaction that is not refused, the read of CMD, a reset. -/
theorem witness_refusals :
    Ref.refusal dsWarm (.write 0xFF#8 0x01#8) = some .errAddr ∧ Ref.refusal dsWarm (.read 0x03#8) = some .errAddr ∧
      Ref.refusal dsWarm (.write 0x00#8 0x08#8) = some .errCmd ∧ Ref.refusal dsWarm (.write 0x00#8 0x01#8) = some .errSeq ∧
      Ref.refusal State.reset (.write 0x00#8 0x02#8) = some .errSeq ∧
      Ref.refusal State.reset (.write 0x00#8 0x06#8) = some .errSeq ∧
      Ref.refusal dsWarm (.write 0x00#8 0x06#8) = none ∧ Ref.refusal dsWarm (.read 0x00#8) = none ∧
      Ref.refusal dsWarm .reset = none ∧ Ref.resets .reset ∧ ¬ Ref.resets (.read 0x00#8) ∧
      (asked [.read 0x00#8]).pending = .read 0x00#8 :: [] := by
  decide

/-- OrderFlagRecordsMissingTemperature: the flag rises, and does not. -/
theorem witness_order :
    Instr.compP ≠ .reset ∧ dsCold.status.calValid = true ∧ dsCold.status.tValid = false ∧
      see (exec .compP dsCold) (fun t => t.errstat.order) = some true ∧
      see (exec .compH dsWarm) (fun t => t.errstat.order) = some false := by
  decide +kernel

/-- OverflowFlagRecordsWrappedResults: a command without arithmetic, and calibrated states that overflow and do not. -/
theorem witness_overflow :
    (∃ t, exec .encode dsWarm = .next t) ∧ dsWarm.status.calValid = true ∧
      (let s := decoded { ds with t1 := 0xFFFF } [] 0 true
       s.status.calValid = true ∧ see (exec .sample s) (fun t => t.errstat.ovf) = some true) ∧
      see (exec .sample dsWarm) (fun t => t.errstat.ovf) = some false :=
  ⟨⟨_, Laws.exec_runs (by decide)⟩, rfl, by decide +kernel, by decide +kernel⟩

/-- ErrorFlagsAreSticky: every flag set, before a step that is no reset and before the two that are. -/
theorem witness_sticky :
    flagged.errstat.byte = 0x1F#8 ∧ ¬ Ref.resets (.read 0x01#8) ∧ Ref.resets .reset ∧ Ref.resets (.write 0x00#8 0x07#8) ∧
      (∃ t, step { flagged with pending := [.read 0x01#8] } = .next t) ∧
      (∃ t, step { flagged with pending := [.reset] } = .next t) ∧
      ∃ t, step { flagged with pending := [.write 0x00#8 0x07#8] } = .next t :=
  ⟨by decide, by decide, by decide, by decide, ⟨_, Laws.step_cons rfl⟩, ⟨_, Laws.step_cons rfl⟩, ⟨_, Laws.step_cons rfl⟩⟩

/-- A state as SAMPLE leaves it (vector V-S3). -/
def sampled : State :=
  { dsWarm with
    temp := 250
    press := 1006
    hum := 60
    status := { calValid := true, tValid := true, pValid := true, hValid := true, pGuard := false } }

/-- ResetValues: states that meet the invariant, a result valid and not. -/
theorem witness_reset_values :
    State.reset.Inv ∧ State.reset.status.tValid = false ∧ State.reset.status.pValid = false ∧
      State.reset.status.hValid = false :=
  ⟨by constructor <;> decide, rfl, rfl, rfl⟩

/-- StepKeepsTheInvariant: a state with results that meets the invariant, about to take a step. -/
theorem witness_invariant :
    { sampled with pending := [.write 0x00#8 0x04#8] }.Inv ∧
      ∃ t, step { sampled with pending := [.write 0x00#8 0x04#8] } = .next t :=
  ⟨by constructor <;> decide, ⟨_, Laws.step_cons rfl⟩⟩

/-- OnlyTheListedTransactionsWrite: transactions that do change the window, the coefficients, the results, the flags. -/
theorem witness_writers :
    Memory.wf (asked []).win ∧
      see (step (asked [.write 0x88#8 0x34#8])) (fun t => Memory.read t.win 0x88) = some 0x34#8 ∧
      see (step { State.reset with win := [(0x88, 0x34#8)], pending := [.write 0x00#8 0x01#8] })
        (fun t => (t.coef.t1, t.status.calValid)) = some (0x0034#16, true) ∧
      see (step { dsCold with pending := [.write 0x00#8 0x03#8] }) (fun t => (t.temp, t.status.tValid)) = some (250, true) ∧
      see (step { dsCold with pending := [.write 0x00#8 0x04#8] }) (fun t => (t.press, t.errstat.order)) = some (968, true) ∧
      see (step { dsCold with pending := [.write 0x00#8 0x05#8] }) (fun t => (t.hum, t.errstat.order)) = some (58, true) := by
  decide +kernel

/-- IgnoredBitsEnterNothing: two windows that differ in the low nibbles alone (vector V-R2). -/
theorem witness_ignored :
    let w : Memory := [(0xF7, 0x65#8), (0xF8, 0x5A#8), (0xF9, 0xCF#8), (0xFA, 0x7E#8), (0xFB, 0xED#8), (0xFC, 0x0F#8),
      (0xFD, 0x75#8), (0xFE, 0x30#8)]
    (∀ a : Nat, a ≠ 0xF9 → a ≠ 0xFC → Memory.read w a = Memory.read dsWarm.win a) ∧
      (Memory.read w 0xF9).extractLsb' 4 4 = (Memory.read dsWarm.win 0xF9).extractLsb' 4 4 ∧
      (Memory.read w 0xFC).extractLsb' 4 4 = (Memory.read dsWarm.win 0xFC).extractLsb' 4 4 ∧ w ≠ dsWarm.win := by
  refine ⟨fun a h h' => ?_, by decide, by decide, by decide⟩
  show Memory.read _ a = Memory.read samples a
  simp only [samples, Laws.read_cons, Laws.read_nil]
  simp [Ne.symm h, Ne.symm h']

/-- SignednessOfH6IsAParameter: a step, a coefficient other than H6, and a calibrated state with the byte 0xE2 and the
operands of vectors V-H5 and V-H6. -/
theorem witness_h6 :
    let s := decoded { ds with h6 := 0xE2 } samples 128422 true
    (∃ t, step { dsWarm with h6Signed := true, pending := [.reset] } = .next t) ∧ (16 : Nat) ≠ 17 ∧
      s.status.calValid = true ∧ s.tFine.toInt = 128422 ∧ Ref.rawH s = 30000 ∧ Ref.x s 12 = 75 ∧ Ref.x s 13 = 367 ∧
      Ref.x s 14 = 0 ∧ Ref.x s 15 = 301 ∧ Ref.x s 16 = 50 ∧ s.coef.h6 = 0xE2#8 :=
  ⟨⟨_, Laws.step_cons rfl⟩, by decide⟩

/-- SignednessOfH6IsAParameter: the byte of H6 at both ends of its negative range, and just below it. -/
theorem witness_h6_byte :
    128 ≤ (0x80#8).toNat ∧ 128 ≤ (0xFF#8).toNat ∧ ¬ 128 ≤ (0x7F#8).toNat := by
  decide

/-- CommandEndStatesUnderH6Signed: a command that is neither COMP_H nor SAMPLE. -/
theorem witness_end_states : Instr.compP ≠ .compH ∧ Instr.compP ≠ .sample := by decide

end Sys2Proof.Tests
end

/-! Proofs for the statements of 10_state.md: the coefficient image (R13), the raw samples (R14 to R16), the reset values (R27). -/

namespace Sys2Proof.Proofs

open Sys2Proof.Machine

/-! ### The coefficient image -/

/-- Byte `j` of coefficient `i` stands at `0x20 + 2*i + j` (20_memory.md R42). -/
theorem place_coefByte {i j : Nat} (hi : i < 18) (hj : j < 2) :
    place (BitVec.ofNat 8 (0x20 + 2 * i + j)).toNat = .coef i j := by
  have named : ∀ (i : Fin 18) (j : Fin 2), place (BitVec.ofNat 8 (0x20 + 2 * i + j)).toNat = .coef i j := by decide
  exact named ⟨i, hi⟩ ⟨j, hj⟩

/-- Byte `j` of the image of coefficient `i` reads as byte `j` of `x[i] mod 2^16`. -/
theorem readAnswer_coefByte (s : State) {i j : Nat} (hi : i < 18) (hj : j < 2) :
    ((readAnswer (BitVec.ofNat 8 (0x20 + 2 * i + j)) s).toNat : Int) = Ref.x s i % 65536 / 256 ^ j % 256 := by
  have answer : readAnswer (BitVec.ofNat 8 (0x20 + 2 * i + j)) s = byteOf (coefWord s.h6Signed s.coef i) j := by
    simp only [readAnswer, place_coefByte hi hj]
  rw [answer, Laws.byteOf_toNat, ← Laws.coefWord_toNat]
  norm_cast

/-- The coefficient image is read-only: a host write to any byte of it is refused. -/
theorem hostWrite_coefByte (s : State) (d : Byte) {i j : Nat} (hi : i < 18) (hj : j < 2) :
    hostWrite (BitVec.ofNat 8 (0x20 + 2 * i + j)) d s = .next (raise .errAddr s) := by
  simp only [hostWrite, place_coefByte hi hj]

/-- Settles O4: both bytes are the instances `j = 0` and `j = 1` of the same facts about the image. -/
theorem coefficientImageIsTyped : Obligations.CoefficientImageIsTyped := by
  intro s i hi
  have highAddress : 0x21 + 2 * i = 0x20 + 2 * i + 1 := by omega
  rw [highAddress]
  refine ⟨?low, ?high, fun d => ⟨?lowRefused, ?highRefused⟩⟩
  case low => simpa using readAnswer_coefByte s hi (j := 0) (by decide)
  case high =>
    have h := readAnswer_coefByte s hi (j := 1) (by decide)
    omega
  case lowRefused => exact hostWrite_coefByte s d hi (j := 0) (by decide)
  case highRefused => exact hostWrite_coefByte s d hi (j := 1) (by decide)

/-! ### The raw samples -/

/-- Settles O5: the values are `Ref`'s, and the ranges are those of the samples' 20 and 16 bits. -/
theorem rawSamplesAreAssembled : Obligations.RawSamplesAreAssembled := fun s =>
  ⟨Laws.rawT_spec s, Laws.rawP_spec s, Laws.rawH_spec s, Nat.le_of_lt_succ (rawT s.win).isLt,
    Nat.le_of_lt_succ (rawP s.win).isLt, Nat.le_of_lt_succ (rawH s.win).isLt⟩

/-! ### The reset values -/

/-- Every coefficient reads 0 after reset, H6 as the parameter's default types it (10_state.md R27). -/
theorem x_reset (i : Nat) : Ref.x State.reset i = 0 := by
  unfold Ref.x
  split <;> rfl

/-- Settles O37: the reset state evaluates to the listed values, and the last clause is three fields of the invariant. -/
theorem resetValues : Obligations.ResetValues := by
  refine ⟨fun a => Laws.read_nil a, x_reset, rfl, rfl, rfl, rfl, rfl, rfl, fun s inv => ?invalidReadsZero⟩
  exact ⟨inv.noTemp, fun h => (inv.noPress h).1, inv.noHum⟩

end Sys2Proof.Proofs

/-! Proofs for the statements of 20_memory.md: writes by the address map (R43), reads by the address map (R44), little-endian
registers (R45), reserved addresses (R49). -/

namespace Sys2Proof.Proofs

open Sys2Proof.Machine

/-! ### One step of each kind of access -/

/-- A write to CMD is the command of its byte (30_encoding.md R63). -/
theorem step_write_cmd {s : State} {a d : Byte} {rest : List Transaction} (hp : s.pending = .write a d :: rest)
    (h0 : a.toNat = 0) : step s = command d (Ref.popped s rest) := by
  obtain rfl : a = 0x00#8 := BitVec.eq_of_toNat_eq h0
  rw [Laws.step_cons hp, Laws.command_eq]
  rfl

/-- A write to the window stores its byte there and changes nothing else (20_memory.md R43). -/
theorem step_write_window {s : State} {a d : Byte} {rest : List Transaction} (hp : s.pending = .write a d :: rest)
    (hw : Ref.calw a.toNat ∨ Ref.raww a.toNat) :
    step s = .next { Ref.popped s rest with win := Memory.write s.win a.toNat d } := by
  rw [Laws.step_cons hp, Laws.after_write_window hw]
  rfl

/-- A write outside the window and CMD sets ERR_ADDR and nothing else (60_exceptions.md R144). -/
theorem step_write_refused {s : State} {a d : Byte} {rest : List Transaction} (hp : s.pending = .write a d :: rest)
    (h0 : a.toNat ≠ 0) (hw : ¬ (Ref.calw a.toNat ∨ Ref.raww a.toNat)) :
    step s = .next (raise .errAddr (Ref.popped s rest)) := by
  rw [Laws.step_cons hp, Laws.after_write_refused h0 hw]

/-- The oldest transaction gone from the queue and the byte `b` answered, everything else as it was. -/
def answered (s : State) (rest : List Transaction) (b : Byte) : State := { Ref.popped s rest with reply := some b }

/-- A read of an address that is not reserved changes nothing but the answer. -/
theorem step_read {s : State} {a : Byte} {rest : List Transaction} (hp : s.pending = .read a :: rest)
    (hr : ¬ Ref.reserved a.toNat) :
    step s = .next (answered s rest (readAnswer a s)) := by
  have hplace : place a.toNat ≠ .reserved := fun h => hr ((Laws.place_reserved_iff a).mp h)
  rw [Laws.step_cons hp, Laws.after, Laws.hostRead_eq, if_neg hplace]
  rfl

/-- A read of a reserved address answers 0 and sets ERR_ADDR. -/
theorem step_read_reserved {s : State} {a : Byte} {rest : List Transaction} (hp : s.pending = .read a :: rest)
    (hr : Ref.reserved a.toNat) :
    step s = .next { raise .errAddr (Ref.popped s rest) with reply := some 0 } := by
  rw [Laws.step_cons hp, Laws.after, Laws.hostRead_eq, if_pos ((Laws.place_reserved_iff a).mpr hr)]

/-! ### The bytes that reads answer -/

/-- Byte `j` of a register, as R44 writes it: the quotient by `256^j`, its low 8 bits kept. -/
theorem byteOf_eq_ofInt {n : Nat} (v : BitVec n) (j : Nat) :
    byteOf v j = BitVec.ofInt 8 ((v.toNat : Int) / 256 ^ j) := by
  have quotient : ((v.toNat : Int) / 256 ^ j) = ((v.toNat / 256 ^ j : Nat) : Int) := by norm_cast
  apply BitVec.eq_of_toNat_eq
  rw [quotient, BitVec.ofInt_natCast, BitVec.toNat_ofNat, Laws.byteOf_toNat]

/-- Five flags in the low bits of a byte, as a number (10_state.md R23, R24). -/
theorem flagBits_eq_ofInt (f0 f1 f2 f3 f4 : Bool) :
    (0#3 ++ BitVec.ofBool f4 ++ BitVec.ofBool f3 ++ BitVec.ofBool f2 ++ BitVec.ofBool f1 ++ BitVec.ofBool f0 : Byte) =
      BitVec.ofInt 8 (f0.toNat + 2 * f1.toNat + 4 * f2.toNat + 8 * f3.toNat + 16 * f4.toNat : Nat) := by
  revert f0 f1 f2 f3 f4
  decide

/-- The 32-bit register `v` of `s` stands at the four addresses from `base` up (20_memory.md R42). -/
def RegisterAt (s : State) (base : Nat) (v : BitVec 32) : Prop :=
  base = 0x04 ∧ v = s.tFine ∨ base = 0x08 ∧ v = s.temp ∨ base = 0x0C ∧ v = s.press ∨ base = 0x10 ∧ v = s.hum

theorem place_registers {j : Nat} (hj : j < 4) :
    place (0x04 + j) = .tFine j ∧ place (0x08 + j) = .temp j ∧ place (0x0C + j) = .press j ∧
      place (0x10 + j) = .hum j := by
  interval_cases j <;> decide

/-- A read at `j` past a 32-bit register's base answers its byte `j`, and changes nothing else. -/
theorem step_read_register {s : State} {base : Nat} {v : BitVec 32} (h : RegisterAt s base v) {j : Nat} (hj : j < 4)
    {a : Byte} (ha : a.toNat = base + j) {rest : List Transaction} (hp : s.pending = .read a :: rest) :
    step s = .next (answered s rest (byteOf v j)) := by
  have hr : ¬ Ref.reserved a.toNat := by
    unfold RegisterAt at h
    unfold Ref.reserved
    omega
  have answer : readAnswer a s = byteOf v j := by
    obtain ⟨atTFine, atTemp, atPress, atHum⟩ := place_registers hj
    rcases h with ⟨rfl, rfl⟩ | ⟨rfl, rfl⟩ | ⟨rfl, rfl⟩ | ⟨rfl, rfl⟩
    · simp only [readAnswer, ha, atTFine]
    · simp only [readAnswer, ha, atTemp]
    · simp only [readAnswer, ha, atPress]
    · simp only [readAnswer, ha, atHum]
  rw [step_read hp hr, answer]

/-- Reading a byte of a register leaves the register where and as it was, for the reads that follow. -/
theorem read_register_keeps {s : State} {base : Nat} {v : BitVec 32} (h : RegisterAt s base v) {j : Nat} (hj : j < 4)
    {a : Byte} (ha : a.toNat = base + j) {rest : List Transaction} (hp : s.pending = .read a :: rest) :
    ∃ t, step s = .next t ∧ t.reply = some (byteOf v j) ∧ t.pending = rest ∧ RegisterAt t base v := by
  refine ⟨answered s rest (byteOf v j), step_read_register h hj ha hp, rfl, rfl, ?_⟩
  unfold RegisterAt at *
  exact h

/-- A read of byte `j` of coefficient `i` answers that byte of its word of COEF_RB, and changes nothing else. -/
theorem step_read_coef {s : State} {i j : Nat} (hi : i < 18) (hj : j < 2) {a : Byte} (ha : a.toNat = 0x20 + 2 * i + j)
    {rest : List Transaction} (hp : s.pending = .read a :: rest) :
    step s = .next (answered s rest (byteOf (coefWord s.h6Signed s.coef i) j)) := by
  have hplace : place a.toNat = .coef i j := by
    rw [← place_coefByte hi hj, ← ha, BitVec.ofNat_toNat, BitVec.setWidth_eq]
  have hr : ¬ Ref.reserved a.toNat := by
    rw [← Laws.place_reserved_iff, hplace]
    nofun
  rw [step_read hp hr]
  simp only [readAnswer, hplace]

/-- A read of a window byte answers it, and changes nothing else. -/
theorem step_read_window {s : State} {a : Byte} (hw : Ref.calw a.toNat ∨ Ref.raww a.toNat) {rest : List Transaction}
    (hp : s.pending = .read a :: rest) :
    step s = .next (answered s rest (Memory.read s.win a.toNat)) := by
  have hr : ¬ Ref.reserved a.toNat := by
    unfold Ref.calw Ref.raww at hw
    unfold Ref.reserved
    omega
  have answer : readAnswer a s = Memory.read s.win a.toNat := by
    rcases (Laws.place_window_iff a).mpr hw with h | h <;> simp only [readAnswer, h]
  rw [step_read hp hr, answer]

/-! ### Bytes put together again -/

theorem bytes32_toNat (v : BitVec 32) :
    (byteOf v 0).toNat + (byteOf v 1).toNat * 256 + (byteOf v 2).toNat * 256 ^ 2 + (byteOf v 3).toNat * 256 ^ 3 =
      v.toNat := by
  have := v.isLt
  simp only [Laws.byteOf_toNat]
  omega

theorem bytes16_toNat (w : BitVec 16) : (byteOf w 0).toNat + (byteOf w 1).toNat * 256 = w.toNat := by
  have := w.isLt
  simp only [Laws.byteOf_toNat]
  omega

/-- Every coefficient is at least the smallest of the 16-bit ones (10_state.md R12). -/
theorem x_ge (s : State) (i : Nat) : -32768 ≤ Ref.x s i := by
  have signed : ∀ {n : Nat} (v : BitVec n), n ≤ 16 → -32768 ≤ v.toInt := fun v hn => by
    rw [← BitVec.toInt_signExtend_of_le hn]
    exact (Laws.toInt16_range _).1
  have h6 : -32768 ≤ if s.h6Signed then s.coef.h6.toInt else (s.coef.h6.toNat : Int) := by
    split
    · exact signed _ (by decide)
    · omega
  unfold Ref.x
  split <;> first | exact h6 | exact signed _ (by decide) | omega

/-- The `sext` of a word gives back the signed value it is the residue of (00_scope.md R8). -/
theorem sext_emod {z : Int} (low : -32768 ≤ z) (high : z < 32768) : Ref.sext 16 (z % 65536) = z := by
  unfold Ref.sext
  norm_num
  split <;> omega

/-! ### The statements -/

/-- Settles O1: the write is one step, and the canonical window reads back what the write to it left. -/
theorem writeGoesByTheMap : Obligations.WriteGoesByTheMap := by
  intro s a d rest hp hwf
  refine ⟨fun hw => ?window, fun h0 hw => step_write_refused hp h0 hw, fun i h0 hd => ?defined, fun h0 h8 => ?reserved⟩
  case window =>
    have inWindow : (isCalw a.toNat || isRaww a.toNat) = true := by
      rw [Bool.or_eq_true, Laws.isCalw_iff, Laws.isRaww_iff]
      exact hw
    refine ⟨_, step_write_window hp hw, rfl, ?_, fun b hb => ?_, Laws.wf_write hwf inWindow d⟩
    · rw [Laws.read_write hwf.1, if_pos rfl]
    · rw [Laws.read_write hwf.1, if_neg hb.symm]
  case defined =>
    rw [step_write_cmd hp h0, command, hd]
  case reserved =>
    rw [step_write_cmd hp h0, command, Laws.decode_reserved h8]
    rfl

/-- Settles O2, row by row of the map. -/
theorem readAnswersByTheMap : Obligations.ReadAnswersByTheMap := by
  intro s a rest hp
  dsimp only
  have register {base : Nat} {v : BitVec 32} (h : RegisterAt s base v) (lo : base ≤ a.toNat) (hi : a.toNat ≤ base + 3) :
      step s = .next (answered s rest (BitVec.ofInt 8 (v.toNat / 256 ^ (a.toNat - base)))) := by
    rw [← byteOf_eq_ofInt]
    exact step_read_register h (by omega) (by omega) hp
  refine ⟨fun h => ?cmd, fun h => ?status, fun h => ?errstat, fun lo hi => ?tFine, fun lo hi => ?temp,
    register (.inr (.inr (.inl ⟨rfl, rfl⟩))), register (.inr (.inr (.inr ⟨rfl, rfl⟩))), fun lo hi => ?coef,
    fun hw => ?window, step_read_reserved hp⟩
  case cmd =>
    obtain rfl : a = 0x00#8 := BitVec.eq_of_toNat_eq h
    exact step_read hp (by decide)
  case status =>
    obtain rfl : a = 0x01#8 := BitVec.eq_of_toNat_eq h
    rw [← flagBits_eq_ofInt]
    exact step_read hp (by decide)
  case errstat =>
    obtain rfl : a = 0x02#8 := BitVec.eq_of_toNat_eq h
    rw [← flagBits_eq_ofInt]
    exact step_read hp (by decide)
  case tFine =>
    rw [← Laws.toNat_eq_wrapU_toInt]
    exact register (.inl ⟨rfl, rfl⟩) lo hi
  case temp =>
    rw [← Laws.toNat_eq_wrapU_toInt]
    exact register (.inr (.inl ⟨rfl, rfl⟩)) lo hi
  case coef =>
    rw [← Laws.coefWord_toNat, ← byteOf_eq_ofInt]
    exact step_read_coef (by omega) (by omega) (by omega) hp
  case window =>
    rw [Ref.W, BitVec.ofInt_natCast, BitVec.ofNat_toNat, BitVec.setWidth_eq]
    exact step_read_window hw hp

/-- Settles O3: a read leaves every register as it was, so each read answers its byte of the same register. -/
theorem registersReadLittleEndian : Obligations.RegistersReadLittleEndian := by
  refine ⟨fun s a v rest h hp => ?registers, fun s i rest hi hp => ?coefficients⟩
  case registers =>
    have hreg : RegisterAt s a.toNat v := by simpa [RegisterAt, ← BitVec.toNat_inj] using h
    have near : a.toNat ≤ 0x10 := by
      unfold RegisterAt at hreg
      omega
    have next (j : Nat) (hj : j < 4) : (a + BitVec.ofNat 8 j).toNat = a.toNat + j := by
      rw [BitVec.toNat_add, BitVec.toNat_ofNat]
      omega
    obtain ⟨t0, step0, reply0, pending0, hreg0⟩ := read_register_keeps hreg (j := 0) (by decide) rfl hp
    obtain ⟨t1, step1, reply1, pending1, hreg1⟩ := read_register_keeps hreg0 (by decide) (next 1 (by decide)) pending0
    obtain ⟨t2, step2, reply2, pending2, hreg2⟩ := read_register_keeps hreg1 (by decide) (next 2 (by decide)) pending1
    obtain ⟨t3, step3, reply3, -, -⟩ := read_register_keeps hreg2 (by decide) (next 3 (by decide)) pending2
    have value := bytes32_toNat v
    refine ⟨t0, t1, t2, t3, _, _, _, _, step0, step1, step2, step3, reply0, reply1, reply2, reply3, value, ?_⟩
    rw [Laws.toInt_eq_sext (by decide) v, ← value]
    norm_cast
  case coefficients =>
    have value : ((byteOf (coefWord s.h6Signed s.coef i) 0).toNat : Int) +
        (byteOf (coefWord s.h6Signed s.coef i) 1).toNat * 256 = Ref.x s i % 65536 := by
      rw [← Laws.coefWord_toNat, ← bytes16_toNat]
      norm_cast
    refine ⟨answered s _ _, answered (answered s _ _) rest _, _, _, step_read_coef hi (j := 0) (by decide) ?low hp,
      step_read_coef hi (j := 1) (by decide) ?high rfl, rfl, rfl, ?word, fun small => ?signedWord⟩
    case low => rw [BitVec.toNat_ofNat]; omega
    case high => rw [BitVec.toNat_ofNat]; omega
    case word => exact_mod_cast value
    case signedWord => exact (congrArg (Ref.sext 16) value).trans (sext_emod (x_ge s i) small)

/-- Settles O6: the write is refused, so the read finds every piece of state but ERR_ADDR as it was. -/
theorem reservedAddressesHoldNothing : Obligations.ReservedAddressesHoldNothing := by
  intro s a d rest hr hp
  obtain ⟨h0, hw⟩ : a.toNat ≠ 0 ∧ ¬ (Ref.calw a.toNat ∨ Ref.raww a.toNat) := by
    unfold Ref.reserved at hr
    unfold Ref.calw Ref.raww
    omega
  exact ⟨_, _, step_write_refused hp h0 hw, step_read_reserved rfl hr, rfl⟩

end Sys2Proof.Proofs

/-! Proofs for the statements of 30_encoding.md: the command bytes (R60) and the opcode map (R61). -/

namespace Sys2Proof.Proofs

/-- Bits 7:3 of a byte are its quotient by 8, so they are 0 in the eight smallest bytes and no other. -/
theorem highBits_zero_iff (d : Byte) : d.extractLsb' 3 5 = 0#5 ↔ d.toNat ≤ 0x07 := by
  have quotient : (d.extractLsb' 3 5).toNat = d.toNat / 8 := by
    have := d.isLt
    rw [BitVec.extractLsb'_toNat, Nat.shiftRight_eq_div_pow]
    omega
  rw [← BitVec.toNat_inj, quotient, BitVec.toNat_ofNat]
  omega

/-- A byte is a command exactly when it is none of the reserved ones (30_encoding.md R60, R62). -/
theorem decode_ok_iff (d : Byte) : (∃ i, decode d = .ok i) ↔ d.toNat ≤ 0x07 := by
  constructor
  · rintro ⟨i, h⟩
    by_contra large
    rw [Laws.decode_reserved (by omega)] at h
    nomatch h
  · intro small
    rw [Laws.decode_byte]
    interval_cases d.toNat <;> exact ⟨_, rfl⟩

/-- Settles O7: both descriptions of the command bytes are the bound 0x07, and each row is `Laws.decode_byte` at its word. -/
theorem commandBytesDecode : Obligations.CommandBytesDecode :=
  ⟨fun d => ⟨(decode_ok_iff d).trans (highBits_zero_iff d).symm, decode_ok_iff d⟩, Laws.decode_byte _, Laws.decode_byte _,
    Laws.decode_byte _, Laws.decode_byte _, Laws.decode_byte _, Laws.decode_byte _, Laws.decode_byte _,
    Laws.decode_byte _⟩

end Sys2Proof.Proofs

/-! Proofs for the statements of 40_arithmetic.md: sum, difference and product (R71 to R73, R76), shifts (R74, R75, R77, R78),
quotients (R79, R82), conversions (R80, R81). The values come from `Laws/Arith.lean`; here stand what `ovf` says, and what the
narrowed results are as bits. -/

namespace Sys2Proof.Proofs

open Sys2Proof.Machine

/-! ### What `ovf` says -/

/-- A signed result is reported when it is outside `[-2^31, 2^31 - 1]`. -/
theorem narrowS_ovf_iff (z : Int) : (narrowS z).ovf = true ↔ ¬ (-(2 ^ 31) ≤ z ∧ z ≤ 2 ^ 31 - 1) := by
  rw [Laws.narrowS_ovf, Bool.not_eq_true', Bool.eq_false_iff, ne_eq, Laws.inS_iff]
  norm_num

/-- An unsigned result is reported when it is outside `[0, 2^32)`. -/
theorem narrowU_ovf_iff (z : Int) : (narrowU z).ovf = true ↔ z < 0 ∨ 2 ^ 32 ≤ z := by
  rw [Laws.narrowU_ovf, Bool.not_eq_true', Bool.eq_false_iff, ne_eq, Laws.inU_iff]
  omega

/-- Of a natural number only the upper bound is in question. -/
theorem narrowU_natCast_ovf_iff (n : Nat) : (narrowU (n : Int)).ovf = true ↔ 2 ^ 32 ≤ n := by
  rw [narrowU_ovf_iff]
  omega

/-- Of a U32 read as signed only the upper bound is in question. -/
theorem narrowS_natCast_ovf_iff (a : U32) : (narrowS (a.toNat : Int)).ovf = true ↔ 2 ^ 31 ≤ a.toNat := by
  rw [narrowS_ovf_iff]
  omega

/-! ### The narrowed result as bits -/

theorem wrap_natCast (n : Nat) : wrap (n : Int) = BitVec.ofNat 32 n := BitVec.ofInt_natCast 32 n

theorem wrap_toInt_self (a : S32) : wrap a.toInt = a := BitVec.ofInt_toInt

theorem wrap_toNat_self (a : U32) : wrap (a.toNat : Int) = a := by
  rw [wrap_natCast, BitVec.ofNat_toNat, BitVec.setWidth_eq]

/-- A natural number narrowed is its residue by `2^32`. -/
theorem narrowU_natCast_toNat (n : Nat) : (narrowU (n : Int)).val.toNat = n % 2 ^ 32 := by
  rw [Laws.narrowU_val, wrap_natCast, BitVec.toNat_ofNat]

/-- The unsigned product narrows a natural number. -/
theorem mulu_eq (a b : U32) : mulu a b = narrowU ((a.toNat * b.toNat : Nat) : Int) := by
  rw [mulu, Int.natCast_mul]

/-- The unsigned left shift narrows a natural number. -/
theorem shlu_eq (a : U32) (k : Nat) : shlu a k = narrowU ((a.toNat * 2 ^ k : Nat) : Int) := by
  rw [shlu, Int.natCast_mul]

/-- Narrowing a product keeps the product of the bits. -/
theorem wrap_mul (x y : Int) : wrap (x * y) = wrap x * wrap y := BitVec.ofInt_mul ..

/-- Times `2^k` is the bits moved up by `k`. -/
theorem shls_val (a : S32) (k : Nat) : (shls a k).val = a <<< k := by
  have power : BitVec.ofNat 32 (2 ^ k) = BitVec.twoPow 32 k := by
    apply BitVec.eq_of_toNat_eq
    rw [BitVec.toNat_ofNat, BitVec.toNat_twoPow]
  calc (shls a k).val
      = a * BitVec.twoPow 32 k := by rw [shls, Laws.narrowS_val, wrap_mul, wrap_toInt_self, wrap_natCast, power]
    _ = a <<< k := BitVec.mul_twoPow_eq_shiftLeft a k

/-- The floor of `a / 2^k` is the right shift that fills with the sign. -/
theorem asr_eq_sshiftRight (a : S32) (k : Nat) : asr a k = a.sshiftRight k := by
  apply BitVec.eq_of_toInt_eq
  rw [Laws.asr_toInt, BitVec.toInt_sshiftRight, Int.shiftRight_eq_div_pow]

/-- Below `2^31` the two readings of the bits agree, and so do the two right shifts (40_arithmetic.md R78). -/
theorem lsr_eq_asr {a : U32} (h : a.toNat < 2 ^ 31) (k : Nat) : lsr a k = asr a k := by
  have readings : a.toInt = a.toNat := BitVec.toInt_eq_toNat_of_lt (by omega)
  rw [asr, readings, ← Int.natCast_ediv, wrap_natCast, lsr]

/-! ### The 64-bit product (40_arithmetic.md R72) -/

/-- 64 bits hold the product of two S32 exactly. -/
theorem signExtend_mul_toInt (a b : S32) : (a.signExtend 64 * b.signExtend 64).toInt = a.toInt * b.toInt := by
  have ha := Laws.toInt_range a
  have hb := Laws.toInt_range b
  have small : |a.toInt * b.toInt| ≤ 2147483648 * 2147483648 := by
    rw [abs_mul]
    exact mul_le_mul (abs_le.mpr (by omega)) (abs_le.mpr (by omega)) (abs_nonneg _) (by norm_num)
  obtain ⟨low, high⟩ := abs_le.mp small
  rw [BitVec.toInt_mul, BitVec.toInt_signExtend_of_le (by decide), BitVec.toInt_signExtend_of_le (by decide)]
  exact Int.bmod_eq_of_le (by omega) (by omega)

/-- The low 32 of 64 bits are their value narrowed. -/
theorem low32_eq_wrap (p : BitVec 64) : p.extractLsb' 0 32 = wrap p.toInt := by
  calc p.extractLsb' 0 32
      = p.setWidth 32 := (BitVec.setWidth_eq_extractLsb' (by decide)).symm
    _ = wrap p.toInt := (BitVec.signExtend_eq_setWidth_of_le p (by decide)).symm

/-- 64 bits hold an S32 exactly when their bits 63:31 are all equal: all 0 from 0 up, all 1 below 0. -/
theorem highBits_equal_iff (p : BitVec 64) :
    p.extractLsb' 31 33 = 0#33 ∨ p.extractLsb' 31 33 = BitVec.allOnes 33 ↔
      -(2 ^ 31) ≤ p.toInt ∧ p.toInt ≤ 2 ^ 31 - 1 := by
  have bound := p.isLt
  have high : (p.extractLsb' 31 33).toNat = p.toNat / 2 ^ 31 := by
    rw [BitVec.extractLsb'_toNat, Nat.shiftRight_eq_div_pow]
    omega
  rw [← BitVec.toNat_inj, ← BitVec.toNat_inj, high, BitVec.toNat_allOnes, BitVec.toNat_ofNat,
    BitVec.toInt_eq_toNat_cond]
  split <;> omega

/-! ### The quotient truncated toward zero (40_arithmetic.md R82) -/

theorem tdiv_of_neg {z : Int} (h : z < 0) (n : Int) : z.tdiv n = -((-z) / n) := by
  rw [← Int.tdiv_eq_ediv_of_nonneg (by omega : 0 ≤ -z), Int.neg_tdiv, neg_neg]

/-! ### The statements -/

/-- Settles O13: each result is narrowed from the exact one, and the 64-bit product has the exact value. -/
theorem signedArithmeticWraps : Obligations.SignedArithmeticWraps := by
  intro a b
  have exact64 := signExtend_mul_toInt a b
  refine ⟨(Laws.adds_spec a b).1, narrowS_ovf_iff _, (Laws.subs_spec a b).1, narrowS_ovf_iff _, (Laws.muls_spec a b).1,
    narrowS_ovf_iff _, exact64, ?lowBits, ?highBits⟩
  case lowBits => rw [low32_eq_wrap, exact64, muls, Laws.narrowS_val]
  case highBits =>
    rw [highBits_equal_iff, exact64]
    exact narrowS_ovf_iff _

/-- Settles O14: the shifts are the exact product and floor; the quotient goes by the sign of the dividend. -/
theorem signedShiftsAndQuotient : Obligations.SignedShiftsAndQuotient := by
  refine ⟨fun a k _ => ?shifts, fun a b hb => ⟨fun nonneg => ?quotient, fun neg => ?quotientNeg⟩⟩
  case shifts =>
    have power : ((2 ^ k : Nat) : Int) = 2 ^ k := by norm_cast
    rw [← power]
    exact ⟨(Laws.shls_spec a k).1, shls_val a k, narrowS_ovf_iff _, Laws.asr_toInt a k, asr_eq_sshiftRight a k⟩
  case quotient => rw [Laws.divs_toInt a hb, Int.tdiv_eq_ediv_of_nonneg nonneg]
  case quotientNeg => rw [Laws.divs_toInt a hb, tdiv_of_neg neg]

/-- Settles O15: the exact results are natural numbers, so only their upper bound can fail. -/
theorem unsignedArithmeticWraps : Obligations.UnsignedArithmeticWraps := by
  intro a b
  refine ⟨?product, ?productOvf, fun k _ => ⟨?shift, ?shiftOvf, Laws.lsr_toNat a k, fun h => lsr_eq_asr h k⟩,
    fun _ => Laws.divu_toNat a b⟩
  case product => rw [mulu_eq, narrowU_natCast_toNat]
  case productOvf => rw [mulu_eq, narrowU_natCast_ovf_iff]
  case shift => rw [shlu_eq, narrowU_natCast_toNat]
  case shiftOvf => rw [shlu_eq, narrowU_natCast_ovf_iff]

/-- Settles O16: the operand is one of the integers its 32 bits stand for, so narrowing gives the same bits back. -/
theorem conversionsKeepTheBits : Obligations.ConversionsKeepTheBits := by
  intro a
  refine ⟨wrap_toInt_self a, (Laws.s2u_spec a).1, ?negative, wrap_toNat_self a, (Laws.u2s_spec a).1,
    narrowS_natCast_ovf_iff a⟩
  case negative =>
    have := Laws.toInt_range a
    exact (narrowU_ovf_iff _).trans (by omega)

end Sys2Proof.Proofs

/-! Proofs for the statements of 41_calibration.md: DECODE (R90, R91). -/

namespace Sys2Proof.Proofs

open Sys2Proof.Machine

/-! ### DECODE -/

/-- A window word as a signed coefficient is the `sext` of its two bytes. -/
theorem le16_toInt (s : State) (a : Nat) : (le16 s.win a).toInt = Ref.sext 16 (Ref.W s a + 256 * Ref.W s (a + 1)) := by
  rw [Laws.toInt_eq_sext (by decide), Laws.le16_toNat]
  rfl

/-- A byte above a nibble makes a 12-bit field (H4 and H5 in 41_calibration.md R91). -/
theorem byteNibble_toInt (b : Byte) (n : BitVec 4) :
    (b ++ n : BitVec 12).toInt = Ref.sext 12 ((b.toNat : Int) * 16 + (n.toNat : Int)) := by
  rw [Laws.toInt_eq_sext (by decide), Laws.append_toNat]
  norm_cast

theorem lowNibble_toNat (b : Byte) : ((b.extractLsb' 0 4).toNat : Int) = (b.toNat : Int) % 16 := by
  rw [Laws.extract_toNat, pow_zero, Nat.div_one]
  norm_cast

theorem highNibble_toNat (b : Byte) : ((b.extractLsb' 4 4).toNat : Int) = (b.toNat : Int) / 16 := by
  have := b.isLt
  rw [Laws.extract_toNat]
  omega

/-- P2 to P9 stand in the window one after the other, each a signed word (41_calibration.md R91). -/
theorem x_decodeBody_pressure (s : State) {k : Nat} (low : 2 ≤ k) (high : k ≤ 9) :
    Ref.x (decodeBody s) (2 + k) = (le16 s.win (0x8E + 2 * (k - 1))).toInt := by
  interval_cases k <;> rfl

/-- H4 takes the low nibble of the byte it shares with H5. -/
theorem x_decodeBody_h4 (s : State) :
    Ref.x (decodeBody s) 15 = Ref.sext 12 (Ref.W s 0xE4 * 16 + Ref.W s 0xE5 % 16) := by
  refine (byteNibble_toInt (Memory.read s.win 0xE4) _).trans ?_
  rw [lowNibble_toNat]
  rfl

/-- H5 takes the high nibble of the byte it shares with H4. -/
theorem x_decodeBody_h5 (s : State) :
    Ref.x (decodeBody s) 16 = Ref.sext 12 (Ref.W s 0xE6 * 16 + Ref.W s 0xE5 / 16) := by
  refine (byteNibble_toInt (Memory.read s.win 0xE6) _).trans ?_
  rw [highNibble_toNat]
  rfl

/-- H6 is its byte, read as the parameter types it (00_scope.md R7). -/
theorem x_decodeBody_h6 (s : State) :
    Ref.x (decodeBody s) 17 = if s.h6Signed then Ref.sext 8 (Ref.W s 0xE7) else Ref.W s 0xE7 := by
  show (if s.h6Signed then (Memory.read s.win 0xE7).toInt else Ref.W s 0xE7) = _
  rw [Laws.toInt_eq_sext (by decide)]
  rfl

/-- Settles O18: refused or run by CAL_VALID alone, and the decoded coefficients are the rows of R91 one by one. -/
theorem decodeReadsTheCalibration : Obligations.DecodeReadsTheCalibration := by
  refine ⟨rfl, fun s => ⟨fun populated => Laws.exec_refused (i := .decode) populated, fun empty =>
    ⟨decodeBody s, Laws.exec_runs (i := .decode) empty, rfl, Laws.le16_toNat s.win 0x88, le16_toInt s 0x8A,
      le16_toInt s 0x8C, Laws.le16_toNat s.win 0x8E, fun k low high => ?pressure, rfl, le16_toInt s 0xE1, rfl,
      x_decodeBody_h4 s, x_decodeBody_h5 s, fun unsigned => ?h6Unsigned, fun signed => ?h6Signed⟩⟩⟩
  case pressure => exact (x_decodeBody_pressure s low high).trans (le16_toInt s _)
  case h6Unsigned => simp [x_decodeBody_h6, unsigned]
  case h6Signed => simp [x_decodeBody_h6, signed]

end Sys2Proof.Proofs

/-! Proofs for the statements of 42_temperature.md: COMP_T (R100, R102). -/

namespace Sys2Proof.Proofs

open Sys2Proof.Machine

/-! ### What a calibrated COMP_T leaves -/

/-- A calibrated COMP_T commits one result, and the result is the formula's (42_temperature.md R100). -/
theorem exec_compT_calibrated {s : State} (calibrated : s.status.calValid = true) :
    let f := Ref.temp Ref.wrapS (Ref.x s) (Ref.rawT s)
    ∃ r : TempResult, exec .compT s = .next (commitTemp r s) ∧ r.tFine.toInt = f.tFine ∧
      r.temp.toInt = Ref.tenths f.tFine ∧ r.ovf = Ref.overflowed f.signed [] := by
  obtain ⟨r, runs, fine, tenths, ovf⟩ := Laws.tempBody_spec s
  have passes : Laws.refusedForSequence .compT s = false := by simp [Laws.refusedForSequence, calibrated]
  refine ⟨r, ?_, fine, tenths, ovf⟩
  rw [Laws.exec_runs passes, ← runs, Laws.body]

/-- Of ERRSTAT, a committed temperature touches OVF alone: COMP_T has no use for ORDER. -/
theorem commitTemp_eq (r : TempResult) (s : State) :
    commitTemp r s = { s with
      tFine := r.tFine
      temp := r.temp
      status := { s.status with tValid := true }
      errstat := { s.errstat with ovf := s.errstat.ovf || r.ovf } } := by
  simp [commitTemp, ErrStat.note]

/-- Settles O22: refused or run by CAL_VALID alone, and what a run commits is the formula's result. -/
theorem compTFollowsTheFormula : Obligations.CompTFollowsTheFormula := by
  refine ⟨rfl, fun s => ⟨fun uncalibrated => Laws.exec_refused (by simp [Laws.refusedForSequence, uncalibrated]),
    fun calibrated => ?_⟩⟩
  obtain ⟨r, runs, fine, tenths, ovf⟩ := exec_compT_calibrated calibrated
  exact ⟨commitTemp r s, runs, fine, tenths, ovf ▸ commitTemp_eq r s⟩

/-! ### The operands of COMP_T -/

/-- Of the coefficients, the temperature formula reads T1, T2 and T3 alone. -/
theorem temp_congr {x y : Nat → Int} (t1 : x 0 = y 0) (t2 : x 1 = y 1) (t3 : x 2 = y 2) (w : Int → Int) (raw : Int) :
    Ref.temp w x raw = Ref.temp w y raw := by
  simp only [Ref.temp, t1, t2, t3]

/-- The worked example of 42_temperature.md R100, up to `t_fine`. -/
theorem temp_example {x : Nat → Int} (t1 : x 0 = 27504) (t2 : x 1 = 26435) (t3 : x 2 = -1000) :
    (Ref.temp Ref.wrapS x 519888).tFine = 128422 := by
  simp [Ref.temp, Ref.wrapS, t1, t2, t3]

/-- Settles O24: the formula's value is the same on the same operands, and an S32 is determined by its integer. -/
theorem temperatureIsPure : Obligations.TemperatureIsPure := by
  refine ⟨fun s s' calibrated calibrated' raw t1 t2 t3 => ?same, fun s calibrated raw t1 t2 t3 => ?worked⟩
  case same =>
    obtain ⟨r, runs, fine, tenths, ovf⟩ := exec_compT_calibrated calibrated
    obtain ⟨r', runs', fine', tenths', ovf'⟩ := exec_compT_calibrated calibrated'
    rw [raw, temp_congr t1 t2 t3] at fine tenths ovf
    refine ⟨_, _, runs, runs', BitVec.eq_of_toInt_eq (fine.trans fine'.symm),
      BitVec.eq_of_toInt_eq (tenths.trans tenths'.symm), fun clear clear' => ?_⟩
    simp [clear, clear', ovf, ovf']
  case worked =>
    obtain ⟨r, runs, -, tenths, -⟩ := exec_compT_calibrated calibrated
    rw [raw, temp_example t1 t2 t3] at tenths
    exact ⟨_, runs, tenths.trans (by decide)⟩

end Sys2Proof.Proofs

/-! Proofs for the statements of 43_pressure.md: COMP_P (R110, R112). -/

namespace Sys2Proof.Proofs

open Sys2Proof.Machine

/-! ### What a calibrated COMP_P leaves -/

/-- A calibrated COMP_P runs its body. -/
theorem exec_compP_calibrated {s : State} (calibrated : s.status.calValid = true) :
    exec .compP s = .next (pressBody s) :=
  Laws.exec_runs (i := .compP) (by simp [Laws.refusedForSequence, calibrated])

/-- A committed pressure writes PRESS and its two STATUS bits, and of ERRSTAT touches OVF and ORDER alone. -/
theorem commitPress_eq (r : PressResult) (s : State) :
    commitPress r s = { s with
      press := r.press
      status := { s.status with pValid := true, pGuard := r.guard }
      errstat := { s.errstat with ovf := s.errstat.ovf || r.ovf, order := s.errstat.order || !s.status.tValid } } :=
  rfl

/-- Settles O26: refused or run by CAL_VALID alone, and what a run commits is the formula's result. -/
theorem compPFollowsTheFormula : Obligations.CompPFollowsTheFormula := by
  refine ⟨rfl, fun s => ⟨fun uncalibrated => Laws.exec_refused (by simp [Laws.refusedForSequence, uncalibrated]),
    fun calibrated => ?_⟩⟩
  obtain ⟨r, runs, press, guard, ovf⟩ := Laws.pressBody_spec s
  refine ⟨commitPress r s, runs ▸ exec_compP_calibrated calibrated, press, ?_⟩
  rw [← guard, ← ovf]
  exact commitPress_eq r s

/-! ### COMP_P without a temperature -/

/-- The pressure result does not depend on STATUS: only its commit looks at T_VALID. -/
theorem pressBody_status (s : State) (status : Status) :
    ∃ r : PressResult, pressBody s = commitPress r s ∧
      pressBody { s with status := status } = commitPress r { s with status := status } :=
  ⟨_, rfl, rfl⟩

/-- The same result committed with T_VALID 0 and 1 differs in T_VALID and ORDER alone. -/
theorem commitPress_cold (r : PressResult) {s : State} (cold : s.status.tValid = false) :
    let t' := commitPress r { s with status := { s.status with tValid := true } }
    commitPress r s = { t' with
      status := { t'.status with tValid := false }
      errstat := { t'.errstat with order := true } } := by
  simp [commitPress_eq, cold]

/-- The spec's example of 43_pressure.md R112: the formula on its coefficients and sample, with `T_FINE = 0`. -/
theorem press_example {x : Nat → Int} (p1 : x 3 = 36477) (p2 : x 4 = -10685) (p3 : x 5 = 3024) (p4 : x 6 = 2855)
    (p5 : x 7 = 140) (p6 : x 8 = -7) (p7 : x 9 = 15500) (p8 : x 10 = -14600) (p9 : x 11 = 6000) :
    (Ref.press Ref.wrapS Ref.wrapU x 415148 0).press = 968 := by
  simp [Ref.press, Ref.pressV2, Ref.pressDenominator, Ref.pressSq, Ref.pressV, Ref.pressAccumulator, Ref.pressFinish,
    Ref.pascal, Ref.wrapS, Ref.wrapU, p1, p2, p3, p4, p5, p6, p7, p8, p9]

/-- Settles O28: T_VALID is no operand of the formula, so the two runs commit one result; the example is the formula's. -/
theorem pressureWithoutTemperature : Obligations.PressureWithoutTemperature := by
  refine ⟨fun s calibrated cold => ?cold, fun s calibrated fine raw p1 p2 p3 p4 p5 p6 p7 p8 p9 => ?worked⟩
  case cold =>
    obtain ⟨r, runs, runs'⟩ := pressBody_status s { s.status with tValid := true }
    refine ⟨commitPress r s, _, runs ▸ exec_compP_calibrated calibrated,
      runs' ▸ exec_compP_calibrated calibrated, ?_, commitPress_cold r cold⟩
    simp [cold]
  case worked =>
    obtain ⟨r, runs, press, -, -⟩ := Laws.pressBody_spec s
    refine ⟨commitPress r s, runs ▸ exec_compP_calibrated calibrated, ?_⟩
    have zero : s.tFine.toInt = 0 := by rw [fine]; rfl
    rw [raw, zero, press_example p1 p2 p3 p4 p5 p6 p7 p8 p9] at press
    exact_mod_cast press

end Sys2Proof.Proofs

/-! Proofs for the statements of 44_humidity.md: COMP_H (R120, R122). -/

namespace Sys2Proof.Proofs

open Sys2Proof.Machine

/-! ### What a calibrated COMP_H leaves -/

/-- A calibrated COMP_H commits one result, and the result is the formula's (44_humidity.md R120). -/
theorem exec_compH_calibrated {s : State} (calibrated : s.status.calValid = true) :
    let f := Ref.hum Ref.wrapS (Ref.x s) (Ref.rawH s) s.tFine.toInt
    ∃ r : HumResult, exec .compH s = .next (commitHum r s) ∧ (r.val.toNat : Int) = f.hum ∧
      r.ovf = Ref.overflowed f.signed [] := by
  obtain ⟨r, runs, hum, ovf⟩ := Laws.humBody_spec s
  have passes : Laws.refusedForSequence .compH s = false := by simp [Laws.refusedForSequence, calibrated]
  refine ⟨r, ?_, hum, ovf⟩
  rw [Laws.exec_runs passes, ← runs, Laws.body]

/-- A committed humidity writes HUM and H_VALID, and of ERRSTAT touches OVF and ORDER alone. -/
theorem commitHum_eq (r : HumResult) (s : State) :
    commitHum r s = { s with
      hum := r.val
      status := { s.status with hValid := true }
      errstat := { s.errstat with ovf := s.errstat.ovf || r.ovf, order := s.errstat.order || !s.status.tValid } } :=
  rfl

/-- Settles O30: refused or run by CAL_VALID alone, and what a run commits is the formula's result. -/
theorem compHFollowsTheFormula : Obligations.CompHFollowsTheFormula := by
  refine ⟨rfl, fun s => ⟨fun uncalibrated => Laws.exec_refused (by simp [Laws.refusedForSequence, uncalibrated]),
    fun calibrated => ?_⟩⟩
  obtain ⟨r, runs, hum, ovf⟩ := exec_compH_calibrated calibrated
  exact ⟨commitHum r s, runs, hum, ovf ▸ commitHum_eq r s⟩

/-! ### COMP_H without a temperature -/

/-- Two results with the same HUM value and the same overflow are one: the formula's integers determine what is written. -/
theorem humResult_ext {r r' : HumResult} (val : (r.val.toNat : Int) = r'.val.toNat) (ovf : r.ovf = r'.ovf) : r = r' := by
  obtain ⟨v, o⟩ := r
  obtain ⟨v', o'⟩ := r'
  obtain rfl : v = v' := BitVec.eq_of_toNat_eq (by exact_mod_cast val)
  obtain rfl : o = o' := ovf
  rfl

/-- The same result committed with T_VALID 0 and 1 differs in T_VALID and ORDER alone. -/
theorem commitHum_cold (r : HumResult) {s : State} (cold : s.status.tValid = false) :
    let t' := commitHum r { s with status := { s.status with tValid := true } }
    commitHum r s = { t' with
      status := { t'.status with tValid := false }
      errstat := { t'.errstat with order := true } } := by
  simp [commitHum_eq, cold]

/-- The example of 44_humidity.md R122: the formula on its coefficients and sample, with `T_FINE = 0`. -/
theorem hum_example {x : Nat → Int} (h1 : x 12 = 75) (h2 : x 13 = 367) (h3 : x 14 = 0) (h4 : x 15 = 301) (h5 : x 16 = 50)
    (h6 : x 17 = 30) : (Ref.hum Ref.wrapS x 30000 0).hum = 58 := by
  simp [Ref.hum, Ref.wrapS, h1, h2, h3, h4, h5, h6]

/-- Settles O32: T_VALID is no operand of the formula, so the two runs commit one result; the example is the formula's. -/
theorem humidityWithoutTemperature : Obligations.HumidityWithoutTemperature := by
  refine ⟨fun s calibrated cold => ?cold, fun s calibrated fine raw h1 h2 h3 h4 h5 h6 => ?worked⟩
  case cold =>
    obtain ⟨r, runs, hum, ovf⟩ := exec_compH_calibrated calibrated
    obtain ⟨r', runs', hum', ovf'⟩ :=
      exec_compH_calibrated (s := { s with status := { s.status with tValid := true } }) calibrated
    obtain rfl : r = r' := humResult_ext (hum.trans hum'.symm) (ovf.trans ovf'.symm)
    refine ⟨commitHum r s, _, runs, runs', ?_, commitHum_cold r cold⟩
    simp [commitHum_eq, cold]
  case worked =>
    obtain ⟨r, runs, hum, -⟩ := exec_compH_calibrated calibrated
    have zero : s.tFine.toInt = 0 := by rw [fine]; rfl
    rw [raw, zero, hum_example h1 h2 h3 h4 h5 h6] at hum
    exact ⟨commitHum r s, runs, by exact_mod_cast hum⟩

end Sys2Proof.Proofs

/-! Proofs for the statements of 45_system.md: NOP (R130) and SAMPLE (R131). -/

namespace Sys2Proof.Proofs

open Sys2Proof.Machine

/-! ### NOP -/

/-- Settles O12: no state refuses NOP, and its body is the identity. -/
theorem nopChangesNothing : Obligations.NopChangesNothing :=
  ⟨rfl, fun _ => Laws.exec_runs (i := .nop) rfl⟩

/-! ### SAMPLE -/

/-- A calibrated SAMPLE runs its body. -/
theorem exec_sample_calibrated {s : State} (calibrated : s.status.calValid = true) :
    exec .sample s = .next (sampleBody s) :=
  Laws.exec_runs (i := .sample) (by simp [Laws.refusedForSequence, calibrated])

/-- The three commits of a sample in order: the temperature's sets T_VALID, so the later two have nothing to note in ORDER,
and OVF collects the three overflows. -/
theorem commitSample_eq (rt : TempResult) (rp : PressResult) (rh : HumResult) (s : State) :
    commitHum rh (commitPress rp (commitTemp rt s)) = { s with
      tFine := rt.tFine
      temp := rt.temp
      press := rp.press
      hum := rh.val
      status := { s.status with tValid := true, pValid := true, hValid := true, pGuard := rp.guard }
      errstat := { s.errstat with ovf := s.errstat.ovf || rt.ovf || rp.ovf || rh.ovf } } := by
  simp [commitHum_eq, commitPress_eq, commitTemp_eq]

/-- Settles O34: refused or run by CAL_VALID alone, and a run commits the three formulas' results in order. -/
theorem sampleComputesAllThree : Obligations.SampleComputesAllThree := by
  refine ⟨rfl, fun s => ⟨fun uncalibrated => Laws.exec_refused (by simp [Laws.refusedForSequence, uncalibrated]),
    fun calibrated => ?_⟩⟩
  obtain ⟨rt, rp, rh, runs, fine, tenths, ovfT, press, guard, ovfP, hum, ovfH⟩ := Laws.sampleBody_spec s
  refine ⟨commitHum rh (commitPress rp (commitTemp rt s)), runs ▸ exec_sample_calibrated calibrated, fine, tenths, press,
    hum, ?_⟩
  rw [← guard, ← ovfT, ← ovfP, ← ovfH]
  exact commitSample_eq rt rp rh s

end Sys2Proof.Proofs

/-! Proofs for the statements of 60_exceptions.md: the sequence refusals (R143), precise refusals (R141, R142, R144, R148),
OVF (R145), ORDER (R146), sticky flags (R150). -/

namespace Sys2Proof.Proofs

open Sys2Proof.Machine

/-! ### The flags a command sets once its sequence check passes -/

/-- With nothing to note, ERRSTAT is as it was. -/
theorem note_false_false (e : ErrStat) : e.note false false = e := by
  simp [ErrStat.note]

/-- The bodies without arithmetic leave ERRSTAT alone (60_exceptions.md R145). -/
theorem body_errstat_without_arithmetic {i : Instr} (hi : i = .nop ∨ i = .decode ∨ i = .encode) (s : State) :
    (Laws.body i s).errstat = s.errstat := by
  rcases hi with rfl | rfl | rfl
  · rfl
  · exact Laws.decodeBody_errstat s
  · exact Laws.encodeBody_errstat s

/-- Of ERRSTAT, the body of a command that is not RESET notes OVF and ORDER alone, and ORDER for a pressure or a humidity
without a temperature (60_exceptions.md R145, R146). -/
theorem body_errstat {i : Instr} (hi : i ≠ .reset) (s : State) :
    ∃ ovf, (Laws.body i s).errstat =
      s.errstat.note ovf (decide (i = .compP ∨ i = .compH) && !s.status.tValid) := by
  have silent (h : i = .nop ∨ i = .decode ∨ i = .encode) : (Laws.body i s).errstat = s.errstat.note false false := by
    rw [body_errstat_without_arithmetic h, note_false_false]
  cases i with
  | nop => exact ⟨false, silent (by simp)⟩
  | decode => exact ⟨false, silent (by simp)⟩
  | encode => exact ⟨false, silent (by simp)⟩
  | compT => exact ⟨_, rfl⟩
  | compP => exact ⟨_, rfl⟩
  | compH => exact ⟨_, rfl⟩
  | sample =>
    obtain ⟨rt, rp, rh, runs, -⟩ := Laws.sampleBody_spec s
    refine ⟨rt.ovf || rp.ovf || rh.ovf, ?_⟩
    rw [Laws.body, runs, commitSample_eq]
    simp [ErrStat.note, Bool.or_assoc]
  | reset => exact absurd rfl hi

/-! ### The sequence check -/

/-- Which commands the sequence check refuses, and when (60_exceptions.md R143). -/
theorem refusedForSequence_iff (i : Instr) (s : State) :
    Laws.refusedForSequence i s = true ↔
      (i = .decode ∧ s.status.calValid = true ∨
        (i = .encode ∨ i = .compT ∨ i = .compP ∨ i = .compH ∨ i = .sample) ∧ s.status.calValid = false) := by
  cases i <;> simp [Laws.refusedForSequence]

/-- Settles O39: a body that runs sets no refusal flag, so only the check can have set ERR_SEQ. -/
theorem sequenceRefusals : Obligations.SequenceRefusals := by
  refine ⟨fun i s h => Laws.exec_refused ((refusedForSequence_iff i s).mpr h), fun i s t runs clear raised => ?_⟩
  rw [← refusedForSequence_iff]
  by_contra passes
  rw [Laws.exec_runs (Bool.eq_false_iff.mpr passes)] at runs
  obtain rfl := Host.Outcome.next.inj runs
  have kept : (Laws.body i s).errstat.errSeq = false := by
    by_cases hi : i = .reset
    · rw [hi]
      rfl
    · obtain ⟨ovf, notes⟩ := body_errstat hi s
      rw [notes, Laws.note_errSeq, clear]
  exact absurd (kept.symm.trans raised) (by decide)

/-! ### The refusal that applies to a transaction -/

theorem refusal_of_resets {t : Transaction} (h : Ref.resets t) (u : State) : Ref.refusal u t = none := by
  rcases h with rfl | rfl
  · rfl
  · simp [Ref.refusal]

theorem refusal_write_window {a : Byte} (h : Ref.calw a.toNat ∨ Ref.raww a.toNat) (d : Byte) (u : State) :
    Ref.refusal u (.write a d) = none := by
  have nonzero : a.toNat ≠ 0 := by
    unfold Ref.calw Ref.raww at h
    omega
  have mapped : ¬ (a.toNat ≠ 0 ∧ ¬ Ref.calw a.toNat ∧ ¬ Ref.raww a.toNat) := by tauto
  rw [Ref.refusal, if_neg mapped, if_pos nonzero]

theorem refusal_write_elsewhere {a : Byte} (h0 : a.toNat ≠ 0) (h : ¬ (Ref.calw a.toNat ∨ Ref.raww a.toNat)) (d : Byte)
    (u : State) : Ref.refusal u (.write a d) = some .errAddr := by
  rw [Ref.refusal, if_pos ⟨h0, not_or.mp h⟩]

theorem refusal_reserved_command {d : Byte} (h : 8 ≤ d.toNat) (u : State) :
    Ref.refusal u (.write 0x00#8 d) = some .errCmd := by
  simp [Ref.refusal, h]

/-- A command byte is refused exactly by its command's sequence check. -/
theorem refusal_command (i : Instr) (u : State) :
    Ref.refusal u (.write 0x00#8 (encode i)) =
      if Laws.refusedForSequence i u then some .errSeq else none := by
  cases h : u.status.calValid <;> cases i <;> simp [Ref.refusal, Laws.refusedForSequence, encode, h]

/-- RESET's is the only command byte that resets. -/
theorem eq_reset_of_resets_command {i : Instr} (h : Ref.resets (.write 0x00#8 (encode i))) : i = .reset := by
  revert h
  cases i <;> decide

theorem not_resets_write_window {a : Byte} (h : Ref.calw a.toNat ∨ Ref.raww a.toNat) (d : Byte) :
    ¬ Ref.resets (.write a d) := by
  rintro (reset | command)
  · nomatch reset
  · obtain ⟨rfl, -⟩ := Transaction.write.inj command
    revert h
    decide

/-- What a refused transaction answers: a read 0x00, a write nothing (60_exceptions.md R144). -/
def refusedAnswer : Transaction → Option Byte
  | .read _ => some 0x00#8
  | .write _ _ => none
  | .reset => none

/-- A transaction either meets its refusal, or resets, or is no refusal and notes informational flags alone: the eight
cases of `Laws.after_cases`, by what they do to ERRSTAT. -/
theorem refusal_cases (t : Transaction) {u : State} (unanswered : u.reply = none) :
    (∃ f, Ref.refusal u t = some f ∧ Laws.after t u = { raise f u with reply := refusedAnswer t }) ∨
    (Ref.refusal u t = none ∧ Ref.resets t ∧ Laws.after t u = toReset u) ∨
    (Ref.refusal u t = none ∧ ¬ Ref.resets t ∧ ∃ ovf order, (Laws.after t u).errstat = u.errstat.note ovf order) := by
  have unnoted : u.errstat = u.errstat.note false false := (note_false_false _).symm
  have sameReply (f : RefusalFlag) : raise f u = { raise f u with reply := none } := by rw [← unanswered]; rfl
  rcases Laws.after_cases t u with ⟨resets, e⟩ | ⟨a, rfl, ha, e⟩ | ⟨a, rfl, ha, e⟩ | ⟨a, d, rfl, ha, e⟩ |
    ⟨a, d, rfl, h0, ha, e⟩ | ⟨d, rfl, h8, e⟩ | ⟨i, rfl, hi, refused, e⟩ | ⟨i, rfl, hi, passes, e⟩
  · exact .inr (.inl ⟨refusal_of_resets resets u, resets, e⟩)
  · exact .inr (.inr ⟨if_neg ha, nofun, false, false, e ▸ unnoted⟩)
  · exact .inl ⟨.errAddr, if_pos ha, e⟩
  · exact .inr (.inr ⟨refusal_write_window ha d u, not_resets_write_window ha d, false, false, e ▸ unnoted⟩)
  · exact .inl ⟨.errAddr, refusal_write_elsewhere h0 ha d u, e.trans (sameReply _)⟩
  · exact .inl ⟨.errCmd, refusal_reserved_command h8 u, e.trans (sameReply _)⟩
  · exact .inl ⟨.errSeq, by rw [refusal_command, if_pos refused], e.trans (sameReply _)⟩
  · obtain ⟨ovf, notes⟩ := body_errstat hi u
    exact .inr (.inr ⟨by rw [refusal_command, passes]; rfl, mt eq_reset_of_resets_command hi, ovf, _, e ▸ notes⟩)

/-- Only the state's CAL_VALID decides a refusal. -/
theorem refusal_popped (s : State) (rest : List Transaction) (t : Transaction) :
    Ref.refusal (Ref.popped s rest) t = Ref.refusal s t := by
  cases t <;> rfl

/-- A refusal sets its own flag and no other (60_exceptions.md R141). -/
theorem refuse_eq (e : ErrStat) (f : RefusalFlag) :
    e.refuse f = { e with
      errCmd := e.errCmd || decide (f = .errCmd)
      errSeq := e.errSeq || decide (f = .errSeq)
      errAddr := e.errAddr || decide (f = .errAddr) } := by
  cases f <;> simp [ErrStat.refuse]

/-- With `P1 = 1` and nothing else: the divisor is 1 and the quotient, doubled, no U32; nor is there a temperature. -/
def overflowingCold : State :=
  { State.reset with
    coef := { Coefs.reset with p1 := 1 }
    status := { State.reset.status with calValid := true } }

theorem overflowingCold_flags :
    (pressBody overflowingCold).errstat.ovf = true ∧ (pressBody overflowingCold).errstat.order = true := by
  decide

/-- The read of CMD answers 0x00 and changes nothing (60_exceptions.md R144). -/
theorem after_read_cmd (s : State) (rest : List Transaction) :
    Laws.after (.read 0x00#8) (Ref.popped s rest) = { s with pending := rest, reply := some 0x00#8 } := rfl

/-- Settles O40: which case of `refusal_cases` a transaction falls in is its refusal, and each case says what is left. -/
theorem refusalsArePrecise : Obligations.RefusalsArePrecise := by
  refine ⟨fun s tr rest hp => ?_, overflowingCold, _, rfl, exec_compP_calibrated rfl, overflowingCold_flags⟩
  have readCmd (h : tr = .read 0x00#8) := h ▸ after_read_cmd s rest
  have outcome := refusal_cases tr (u := Ref.popped s rest) rfl
  rw [refusal_popped] at outcome
  rw [Laws.step_cons hp]
  rcases outcome with ⟨f, refused, left⟩ | ⟨accepted, resets, left⟩ | ⟨accepted, keeps, ovf, order, notes⟩
  · refine ⟨fun f' h => ?_, fun h => nomatch refused.symm.trans h⟩
    obtain rfl := Option.some.inj (refused.symm.trans h)
    rw [left, raise, refuse_eq]
    cases tr <;> rfl
  · refine ⟨fun f h => (nomatch accepted.symm.trans h), fun _ => ⟨_, rfl, absurd resets, fun _ => ?_, readCmd⟩⟩
    rw [left]
    exact ⟨rfl, rfl, rfl⟩
  · refine ⟨fun f h => (nomatch accepted.symm.trans h), fun _ => ⟨_, rfl, fun _ => ?_, (absurd · keeps), readCmd⟩⟩
    rw [notes]
    exact ⟨rfl, rfl, rfl⟩

/-! ### Sticky flags -/

/-- Every flag set in `e` is set in `e'` (60_exceptions.md R150). -/
def KeepsFlags (e e' : ErrStat) : Prop :=
  (e.ovf = true → e'.ovf = true) ∧ (e.order = true → e'.order = true) ∧ (e.errCmd = true → e'.errCmd = true) ∧
    (e.errSeq = true → e'.errSeq = true) ∧ (e.errAddr = true → e'.errAddr = true)

theorem keepsFlags_refuse (e : ErrStat) (f : RefusalFlag) : KeepsFlags e (e.refuse f) := by
  rw [refuse_eq]
  simp +contextual [KeepsFlags]

theorem keepsFlags_note (e : ErrStat) (ovf order : Bool) : KeepsFlags e (e.note ovf order) := by
  simp +contextual [KeepsFlags]

/-- Settles O43: of the three cases of a transaction, a refusal and a note keep every flag, and a reset has none. -/
theorem errorFlagsAreSticky : Obligations.ErrorFlagsAreSticky := by
  intro s t taken
  rcases Laws.step_cases taken with ⟨idle, rfl⟩ | ⟨tr, rest, hp, rfl⟩
  · simp [idle]
  have performs : (∃ tr' rest', s.pending = tr' :: rest' ∧ Ref.resets tr') ↔ Ref.resets tr := by simp [hp]
  rw [performs]
  rcases refusal_cases tr (u := Ref.popped s rest) rfl with
    ⟨f, refused, left⟩ | ⟨-, resets, left⟩ | ⟨-, keeps, ovf, order, notes⟩
  · refine ⟨fun resets => ?_, fun _ => ?_⟩
    · nomatch refused.symm.trans (refusal_of_resets resets _)
    · rw [left]
      exact keepsFlags_refuse s.errstat f
  · rw [left]
    exact ⟨fun _ => rfl, absurd resets⟩
  · rw [notes]
    exact ⟨(absurd · keeps), fun _ => keepsFlags_note s.errstat ovf order⟩

/-! ### ORDER -/

/-- The two commands that can set ORDER are refused exactly without a calibration. -/
theorem refusedForSequence_pressure_humidity {i : Instr} (hi : i = .compP ∨ i = .compH) (s : State) :
    Laws.refusedForSequence i s = !s.status.calValid := by
  rcases hi with rfl | rfl <;> rfl

/-- Settles O41: a refusal leaves ORDER, a body that runs notes it, and the results are the formulas'. -/
theorem orderFlagRecordsMissingTemperature : Obligations.OrderFlagRecordsMissingTemperature := by
  intro i s hi
  have checked (h : i = .compP ∨ i = .compH) := refusedForSequence_pressure_humidity h s
  cases check : Laws.refusedForSequence i s
  case true =>
    have uncalibrated (h : i = .compP ∨ i = .compH) : ¬ s.status.calValid = true := by
      simpa [check] using checked h
    exact ⟨_, Laws.exec_refused check,
      ⟨.inl, fun h => h.resolve_right fun ⟨computes, calibrated, _⟩ => uncalibrated computes calibrated⟩,
      fun h calibrated => absurd calibrated (uncalibrated (.inl h)),
      fun h calibrated => absurd calibrated (uncalibrated (.inr h))⟩
  case false =>
    have calibrated (h : i = .compP ∨ i = .compH) : s.status.calValid = true := by
      simpa [check] using checked h
    obtain ⟨ovf, notes⟩ := body_errstat hi s
    refine ⟨_, Laws.exec_runs check, ?order, ?press, ?hum⟩
    case order =>
      rw [notes]
      simp only [Laws.note_order, Bool.or_eq_true, Bool.and_eq_true, decide_eq_true_eq, Bool.not_eq_true']
      exact or_congr_right (and_congr_right fun h => (and_iff_right (calibrated h)).symm)
    case press =>
      rintro rfl -
      obtain ⟨r, runs, press, -⟩ := Laws.pressBody_spec s
      rw [Laws.body, runs]
      exact ⟨rfl, press⟩
    case hum =>
      rintro rfl -
      obtain ⟨r, runs, hum, -⟩ := Laws.humBody_spec s
      rw [Laws.body, runs]
      exact ⟨rfl, hum⟩

/-! ### OVF -/

/-- Some exact result does not fit, said of its list (40_arithmetic.md R83). -/
theorem overflowed_iff (signed unsigned : List Int) :
    Ref.overflowed signed unsigned = true ↔
      (∃ z ∈ signed, Ref.inS z = false) ∨ ∃ z ∈ unsigned, Ref.inU z = false := by
  simp [Ref.overflowed]

/-- The exact results of a sample are its three formulas' together; only the pressure has unsigned ones. -/
theorem overflowed_sample (temp press hum unsigned : List Int) :
    Ref.overflowed (temp ++ press ++ hum) unsigned =
      (Ref.overflowed temp [] || Ref.overflowed press unsigned || Ref.overflowed hum []) := by
  have outer := Laws.overflowed_append (temp ++ press) hum unsigned []
  have inner := Laws.overflowed_append temp press [] unsigned
  rw [List.append_nil] at outer
  rw [List.nil_append] at inner
  rw [outer, inner]

/-- Settles O42: refused or run, the three commands without arithmetic leave OVF; of the others it is the formula's. -/
theorem overflowFlagRecordsWrappedResults : Obligations.OverflowFlagRecordsWrappedResults := by
  refine ⟨fun i s t runs hi => ?silent, fun s calibrated => ⟨?compT, ?compP, ?compH, ?sample⟩⟩
  case silent =>
    rw [Laws.exec_eq] at runs
    obtain rfl := Host.Outcome.next.inj runs
    split
    · rfl
    · rw [body_errstat_without_arithmetic hi]
  case compT =>
    obtain ⟨t, runs, fine, tenths, frame⟩ := (compTFollowsTheFormula.2 s).2 calibrated
    have valid := congrArg (·.status.tValid) frame
    have ovf := congrArg (·.errstat.ovf) frame
    refine ⟨t, runs, fine, tenths, valid, ?_⟩
    simp [ovf, overflowed_iff]
  case compP =>
    obtain ⟨t, runs, press, frame⟩ := (compPFollowsTheFormula.2 s).2 calibrated
    have valid := congrArg (·.status.pValid) frame
    have ovf := congrArg (·.errstat.ovf) frame
    refine ⟨t, runs, press, valid, ?_⟩
    simp [ovf, overflowed_iff]
  case compH =>
    obtain ⟨t, runs, hum, frame⟩ := (compHFollowsTheFormula.2 s).2 calibrated
    have valid := congrArg (·.status.hValid) frame
    have ovf := congrArg (·.errstat.ovf) frame
    refine ⟨t, runs, hum, valid, ?_⟩
    simp [ovf, overflowed_iff]
  case sample =>
    obtain ⟨t, runs, fine, tenths, press, hum, frame⟩ := (sampleComputesAllThree.2 s).2 calibrated
    have status := congrArg (·.status) frame
    have ovf := congrArg (·.errstat.ovf) frame
    refine ⟨t, runs, fine, tenths, press, hum, congrArg (·.tValid) status, congrArg (·.pValid) status,
      congrArg (·.hValid) status, ?_⟩
    rw [← overflowed_iff, overflowed_sample, ovf]
    simp [or_assoc]

end Sys2Proof.Proofs

/-! Proofs for the statements of 30_encoding.md on commands: decoding and encoding agree (R60, R61), a step runs the decoded
command (R63), and so does the step after `withFetchWord` (log entry 4). -/

namespace Sys2Proof.Proofs

open Sys2Proof.Machine

/-- A command's byte decodes to it. -/
theorem decode_encode (i : Instr) : decode (encode i) = .ok i := by
  cases i <;> rfl

/-- A byte that decodes to a command is its byte: the eight rows each name one byte. -/
theorem encode_of_decode {d : Byte} {i : Instr} (h : decode d = .ok i) : encode i = d := by
  have small : d.toNat ≤ 0x07 := (decode_ok_iff d).mp ⟨i, h⟩
  rw [Laws.decode_byte] at h
  apply BitVec.eq_of_toNat_eq
  interval_cases d.toNat <;> (obtain rfl := Except.ok.inj h; rfl)

/-- Settles O8, both directions. -/
theorem decodeInvertsEncode : Obligations.DecodeInvertsEncode :=
  ⟨decode_encode, fun _ _ => encode_of_decode⟩

/-- Settles O9: address 0x00 is CMD, and a write there of a defined byte is its command. -/
theorem stepRunsTheDecodedCommand : Obligations.StepRunsTheDecodedCommand := by
  intro s d i rest hp hd
  rw [step_write_cmd hp rfl, command, hd]
  rfl

/-- Settles O10: the placed word is a pending write to CMD of the byte it was decoded from. -/
theorem placedWordRunsNext : Obligations.PlacedWordRunsNext := by
  intro s w i h
  have hd : decode (BitVec.ofNat 8 (tableWord 8 w)) = .ok i := by
    unfold decodeTableWord at h
    split at h
    · cases hx : decode (BitVec.ofNat 8 (tableWord 8 w)) with
      | ok j => rw [hx] at h; exact congrArg Except.ok (Option.some.inj h)
      | error e => rw [hx] at h; nomatch h
    · nomatch h
  exact stepRunsTheDecodedCommand (s.withFetchWord 8 w) _ i s.pending rfl hd

end Sys2Proof.Proofs

/-! Proofs for the statements of 40_arithmetic.md on the laws of its section 6 (R84). -/

namespace Sys2Proof.Proofs

open Sys2Proof.Machine

/-! ### Products -/

/-- The product of two 16-bit operands is at most `2^30` in magnitude. -/
theorem mul16_range {a b : Int} (ha : -32768 ≤ a ∧ a ≤ 32767) (hb : -32768 ≤ b ∧ b ≤ 32767) :
    -(2 ^ 30) ≤ a * b ∧ a * b ≤ 2 ^ 30 := by
  rw [← abs_le, abs_mul]
  calc |a| * |b|
      ≤ 32768 * 32768 := mul_le_mul (abs_le.mpr (by omega)) (abs_le.mpr (by omega)) (abs_nonneg b) (by norm_num)
    _ = 2 ^ 30 := by norm_num

/-- The value of an S32 narrows to it, and is not reported. -/
theorem narrowS_toInt {a : S32} : narrowS a.toInt = { val := a, ovf := false } := by
  have fits := (Laws.inS_iff _).mpr (Laws.toInt_range a)
  rw [narrowS, Laws.fitsS_eq, fits, wrap_toInt_self]
  rfl

/-- The two readings of 32 bits differ by a multiple of `2^32`, so narrowing does not see which one was scaled. -/
theorem muls_val_eq_mulu_val (a b : BitVec 32) : (muls a b).val = (mulu a b).val := by
  rw [muls, mulu, Laws.narrowS_val, Laws.narrowU_val, wrap_mul, wrap_mul, wrap_toInt_self, wrap_toInt_self,
    wrap_toNat_self, wrap_toNat_self]

theorem shls_val_eq_shlu_val (a : BitVec 32) (k : Nat) : (shls a k).val = (shlu a k).val := by
  rw [shls, shlu, Laws.narrowS_val, Laws.narrowU_val, wrap_mul, wrap_mul, wrap_toInt_self, wrap_toNat_self]

/-! ### Right shifts and quotients -/

/-- Shifts in turn add up: a floor of a floor is one floor. -/
theorem asr_asr (a : S32) (j k : Nat) : asr (asr a j) k = asr a (j + k) := by
  apply BitVec.eq_of_toInt_eq
  rw [Laws.asr_toInt, Laws.asr_toInt, Laws.asr_toInt, Int.ediv_ediv_of_nonneg (by positivity), pow_add]
  push_cast
  rfl

/-- The right shift is the floor, so it brackets the quotient. -/
theorem asr_brackets (a : S32) (k : Nat) :
    (asr a k).toInt * 2 ^ k ≤ a.toInt ∧ a.toInt < ((asr a k).toInt + 1) * 2 ^ k := by
  have pos : (0 : Int) < 2 ^ k := by positivity
  rw [Laws.asr_toInt]
  push_cast
  exact ⟨Int.ediv_mul_le _ pos.ne', Int.lt_ediv_add_one_mul_self _ pos⟩

/-- Truncation toward zero is odd. -/
theorem divs_odd {a c : S32} {b : Nat} (hb : 0 < b) (opposite : c.toInt = -a.toInt) :
    (divs c b).toInt = -(divs a b).toInt := by
  rw [Laws.divs_toInt c hb, Laws.divs_toInt a hb, opposite, Int.neg_tdiv]

/-- What truncation toward zero leaves out has the sign of the dividend. -/
theorem divs_mul_le (a : S32) {b : Nat} (hb : 0 < b) : |(divs a b).toInt * b| ≤ |a.toInt| := by
  rw [Laws.divs_toInt a hb, Int.abs_eq_natAbs, Int.abs_eq_natAbs, Int.natAbs_mul, Int.natAbs_tdiv]
  exact_mod_cast Nat.div_mul_le_self a.toInt.natAbs b

/-! ### The statement -/

/-- Settles O17, law by law. -/
theorem arithmeticLaws : Obligations.ArithmeticLaws := by
  refine ⟨fun a b a1 a2 b1 b2 => ?small, fun a b => ⟨?mulComm, ?addComm⟩, fun a => ⟨?mulZero, ?mulOne, ?addZero, ?asrZero⟩,
    fun a j k _ => asr_asr a j k, fun a k _ => asr_brackets a k,
    fun a b k => ⟨muls_val_eq_mulu_val a b, shls_val_eq_shlu_val a k⟩,
    fun a c b hb opposite => ⟨divs_odd hb opposite, divs_mul_le a hb⟩⟩
  case small =>
    have range := mul16_range ⟨a1, a2⟩ ⟨b1, b2⟩
    have fits := (Laws.inS_iff (a.toInt * b.toInt)).mpr (by omega)
    obtain ⟨val, ovf⟩ := Laws.muls_spec a b
    exact ⟨val.trans (Laws.wrapS_of_inS fits), by rw [ovf, fits]; rfl, range⟩
  case mulComm => rw [muls, muls, mul_comm]
  case addComm => rw [adds, adds, add_comm]
  case mulZero => rw [muls, show (0 : S32).toInt = 0 by decide, mul_zero]; rfl
  case mulOne => rw [muls, show (1 : S32).toInt = 1 by decide, mul_one, narrowS_toInt]
  case addZero => rw [adds, show (0 : S32).toInt = 0 by decide, add_zero, narrowS_toInt]
  case asrZero => rw [asr, pow_zero, Nat.cast_one, Int.ediv_one, wrap_toInt_self]

end Sys2Proof.Proofs

/-! Proofs for the statements of 41_calibration.md on ENCODE (R92, R93) and on the round trip (R94). -/

namespace Sys2Proof.Proofs

open Sys2Proof.Machine

/-! ### The addresses of `enc` -/

/-- CALW in rising order, the order `enc` writes it in (10_state.md R11). -/
def calwAddresses : List Nat := List.range' 0x88 24 ++ 0xA1 :: List.range' 0xE1 7

theorem mem_calwAddresses (a : Nat) : a ∈ calwAddresses ↔ Ref.calw a := by
  simp only [calwAddresses, List.mem_append, List.mem_cons, List.mem_range'_1, Ref.calw]
  omega

theorem nodup_calwAddresses : calwAddresses.Nodup := by decide

theorem enc_addresses (c : Coefs) : (enc c).map Prod.fst = calwAddresses := by
  simp only [enc, word16, calwAddresses, List.cons_append, List.nil_append, List.map_cons, List.map_nil, List.range']

theorem calw_of_mem_enc {c : Coefs} {cell : Host.Cell} (h : cell ∈ enc c) : Ref.calw cell.1 := by
  rw [← mem_calwAddresses, ← enc_addresses c]
  exact List.mem_map_of_mem h

/-- `enc` writes window addresses only, so the canonical form is kept. -/
theorem wf_writeAll_enc {m : Memory} (h : Memory.wf m) (c : Coefs) : Memory.wf (Memory.writeAll m (enc c)) := by
  refine Laws.wf_writeAll (fun cell hc => ?_) h
  rw [(Laws.isCalw_iff _).mpr (calw_of_mem_enc hc), Bool.true_or]

/-! ### Windows that hold the image of a coefficient file -/

/-- Every cell of `enc c` is in the window `w`. -/
def Holds (w : Memory) (c : Coefs) : Prop := ∀ cell ∈ enc c, Memory.read w cell.1 = cell.2

/-- A window holds the image once it is written. -/
theorem holds_writeAll_enc {m : Memory} (h : Memory.wf m) (c : Coefs) : Holds (Memory.writeAll m (enc c)) c :=
  fun _ hc => Laws.read_writeAll_mem (enc_addresses c ▸ nodup_calwAddresses) h.1 hc

/-- A byte outside the calibration window reads as before. -/
theorem read_writeAll_enc_other {m : Memory} (h : Memory.wf m) (c : Coefs) {a : Nat} (ha : ¬ Ref.calw a) :
    Memory.read (Memory.writeAll m (enc c)) a = Memory.read m a :=
  Laws.read_writeAll_other _ h.1 fun _ hc same => ha (same ▸ calw_of_mem_enc hc)

/-- Two windows that hold one image agree on the calibration window. -/
theorem read_eq_of_holds {w w' : Memory} {c : Coefs} (h : Holds w c) (h' : Holds w' c) {a : Nat} (ha : Ref.calw a) :
    Memory.read w a = Memory.read w' a := by
  rw [← mem_calwAddresses, ← enc_addresses c, List.mem_map] at ha
  obtain ⟨cell, hc, rfl⟩ := ha
  rw [h cell hc, h' cell hc]

/-! ### Bytes and nibbles cut and joined again -/

theorem byteOf_append_low (x y : Byte) : byteOf (x ++ y : BitVec 16) 0 = y := BitVec.extractLsb'_append_eq_right

theorem byteOf_append_high (x y : Byte) : byteOf (x ++ y : BitVec 16) 1 = x := BitVec.extractLsb'_append_eq_left

/-- Cut in two, the bits join to what they were. -/
theorem cut_append {n k : Nat} (v : BitVec (n + k)) : v.extractLsb' k n ++ v.extractLsb' 0 k = v := by
  rw [BitVec.extractLsb'_append_extractLsb'_eq_extractLsb' (Nat.zero_add k).symm, BitVec.extractLsb'_eq_self]

theorem bytes_append (v : BitVec 16) : (byteOf v 1 ++ byteOf v 0 : BitVec 16) = v := cut_append (n := 8) (k := 8) v

/-! ### `dec` and `enc` -/

/-- A window holds the image of what is decoded from it. -/
theorem holds_dec (w : Memory) : Holds w (dec w) := by
  have nibbles := cut_append (n := 4) (k := 4)
  unfold Holds
  simp only [enc, dec, word16, le16, List.cons_append, List.nil_append, List.forall_mem_cons, byteOf_append_low,
    byteOf_append_high, BitVec.extractLsb'_append_eq_right, BitVec.extractLsb'_append_eq_left, nibbles, true_and]
  exact List.forall_mem_nil _

/-- What is decoded from a window is the coefficients whose image it holds. -/
theorem dec_of_holds {w : Memory} {c : Coefs} (h : Holds w c) : dec w = c := by
  have field := cut_append (n := 8) (k := 4)
  have low (x y : BitVec 4) : (x ++ y : Byte).extractLsb' 0 4 = y := BitVec.extractLsb'_append_eq_right
  have high (x y : BitVec 4) : (x ++ y : Byte).extractLsb' 4 4 = x := BitVec.extractLsb'_append_eq_left
  unfold Holds at h
  simp only [enc, word16, List.cons_append, List.nil_append, List.forall_mem_cons, Nat.reduceAdd] at h
  simp only [dec, le16, Nat.reduceAdd, h, bytes_append, low, high, field]

/-- Only the calibration bytes are decoded. -/
theorem dec_congr {w w' : Memory} (h : ∀ a, Ref.calw a → Memory.read w a = Memory.read w' a) : dec w = dec w' :=
  dec_of_holds fun cell hc => (h cell.1 (calw_of_mem_enc hc)).trans (holds_dec w' cell hc)

/-- Settles O20: what is written is held, what is held is decoded, and `enc`'s addresses are CALW in rising order. -/
theorem decAndEncAreInverse : Obligations.DecAndEncAreInverse := by
  refine ⟨fun m c h => dec_of_holds (holds_writeAll_enc h c), fun m h => ?_, fun c => ?_⟩
  · refine Laws.eq_of_read_eq (wf_writeAll_enc h _) h fun a => ?_
    by_cases ha : Ref.calw a
    · exact read_eq_of_holds (holds_writeAll_enc h _) (holds_dec m) ha
    · exact read_writeAll_enc_other h _ ha
  · rw [enc_addresses]
    exact ⟨nodup_calwAddresses, mem_calwAddresses⟩

/-! ### ENCODE -/

/-- A calibrated ENCODE writes the image of its coefficients; `w` is a variable, as in `Laws.encodeBody_spec`. -/
theorem exec_encode_calibrated {s : State} (calibrated : s.status.calValid = true) :
    ∃ w, exec .encode s = .next { s with win := w } ∧ w = Memory.writeAll s.win (enc s.coef) := by
  obtain ⟨w, runs, written⟩ := Laws.encodeBody_spec s
  have passes : Laws.refusedForSequence .encode s = false := by simp [Laws.refusedForSequence, calibrated]
  exact ⟨w, by rw [Laws.exec_runs passes, Laws.body, runs], written⟩

/-- The first twelve coefficients are words, one after the other in the window (41_calibration.md R91). -/
theorem coefWord_dec (h6Signed : Bool) (w : Memory) {k : Nat} (hk : k < 12) :
    coefWord h6Signed (dec w) k = le16 w (0x88 + 2 * k) := by
  interval_cases k <;> rfl

/-- The byte of H6 is `x[17]` modulo 256, whichever way the parameter reads it. -/
theorem x_h6_mod (s : State) : Ref.x s 17 % 256 = (s.coef.h6.toNat : Int) := by
  show (if s.h6Signed then s.coef.h6.toInt else (s.coef.h6.toNat : Int)) % 256 = _
  split
  · exact (Laws.toNat_eq_toInt_mod s.coef.h6).symm
  · have := s.coef.h6.isLt
    omega

/-- Settles O19: the written window decodes to the coefficients, so each of its bytes is the stated residue. -/
theorem encodeWritesTheCalibration : Obligations.EncodeWritesTheCalibration := by
  refine ⟨rfl, fun s => ⟨fun uncalibrated => Laws.exec_refused (by simp [Laws.refusedForSequence, uncalibrated]),
    fun calibrated => ?_⟩⟩
  obtain ⟨w, runs, written⟩ := exec_encode_calibrated calibrated
  refine ⟨_, runs, rfl, fun h => ?_⟩
  have canonical := wf_writeAll_enc h s.coef
  have others := fun a => read_writeAll_enc_other h s.coef (a := a)
  have decoded := dec_of_holds (holds_writeAll_enc h s.coef)
  rw [← written] at canonical others decoded
  refine ⟨canonical, ?_, others⟩
  have word {a i : Nat} (e : coefWord s.h6Signed s.coef i = le16 w a) :
      ((Memory.read w a).toNat : Int) = Ref.x s i % 65536 % 256 ∧
        ((Memory.read w (a + 1)).toNat : Int) = Ref.x s i % 65536 / 256 := by
    have bits := Laws.coefWord_toNat s i
    have := (Memory.read w a).isLt
    rw [e, Laws.le16_toNat] at bits
    omega
  have h2 := word (a := 0xE1) (i := 13) (decoded ▸ rfl)
  have h4 : ((Memory.read w 0xE4).toNat * 16 + (Memory.read w 0xE5).toNat % 16 : Int) = Ref.x s 15 % 4096 := by
    refine Eq.trans ?_ (Laws.toNat_eq_toInt_mod s.coef.h4)
    rw [← decoded, dec, Laws.append_toNat, ← lowNibble_toNat]
    norm_cast
  have h5 : ((Memory.read w 0xE6).toNat * 16 + (Memory.read w 0xE5).toNat / 16 : Int) = Ref.x s 16 % 4096 := by
    refine Eq.trans ?_ (Laws.toNat_eq_toInt_mod s.coef.h5)
    rw [← decoded, dec, Laws.append_toNat, ← highNibble_toNat]
    norm_cast
  simp only [Ref.W]
  refine ⟨fun k hk => ?words, ?h1, h2.1, h2.2, ?h3, ?h4, ?shared, ?h5, ?h6⟩
  case words =>
    rw [show 0x89 + 2 * k = 0x88 + 2 * k + 1 by omega]
    exact word (by rw [← coefWord_dec s.h6Signed w hk, decoded])
  case h1 => exact congrArg (fun c : Coefs => (c.h1.toNat : Int)) decoded
  case h3 => exact congrArg (fun c : Coefs => (c.h3.toNat : Int)) decoded
  case h6 => exact (congrArg (fun c : Coefs => (c.h6.toNat : Int)) decoded).trans (x_h6_mod s).symm
  all_goals omega

/-! ### DECODE, writes, ENCODE -/

/-- A step at a pending command write that is not refused is the command's body (30_encoding.md R63). -/
theorem step_command {s : State} {d : Byte} {i : Instr} {rest : List Transaction}
    (hp : s.pending = .write 0x00#8 d :: rest) (hd : decode d = .ok i) (passes : Laws.refusedForSequence i s = false) :
    step s = .next (Laws.body i (Ref.popped s rest)) :=
  (stepRunsTheDecodedCommand s d i rest hp hd).trans (Laws.exec_runs passes)

/-- Host writes to calibration bytes and then ENCODE, from a window that still is `m` outside the calibration window and with
the coefficients of `m`: the window becomes `m` again. -/
theorem writes_encode_restore {m : Memory} {rest : List Transaction} (writes : List (Byte × Byte)) :
    ∀ s : State, Memory.wf s.win → s.status.calValid = true → s.coef = dec m →
      (∀ a, ¬ Ref.calw a → Memory.read s.win a = Memory.read m a) → (∀ w ∈ writes, Ref.calw w.1.toNat) →
      s.pending = writes.map (fun w => Transaction.write w.1 w.2) ++ .write 0x00#8 0x02#8 :: rest →
      ∃ t, Ref.stepsTo (writes.length + 1) s t ∧ t.pending = rest ∧ t.errstat = s.errstat ∧ t.coef = dec m ∧
        ∀ a, Memory.read t.win a = Memory.read m a := by
  induction writes with
  | nil =>
    intro s canonical calibrated coefs outside _ hp
    have encodes : step s = .next (encodeBody (Ref.popped s rest)) :=
      step_command (i := .encode) hp rfl (by simp [Laws.refusedForSequence, calibrated])
    obtain ⟨w, runs, written⟩ := Laws.encodeBody_spec (Ref.popped s rest)
    rw [runs] at encodes
    refine ⟨_, ⟨_, encodes, rfl⟩, rfl, rfl, coefs, fun a => ?_⟩
    have holds := holds_writeAll_enc canonical s.coef
    have others := read_writeAll_enc_other canonical s.coef (a := a)
    change w = Memory.writeAll s.win (enc s.coef) at written
    rw [← written] at holds others
    by_cases ha : Ref.calw a
    · exact read_eq_of_holds holds (coefs ▸ holds_dec m) ha
    · exact (others ha).trans (outside a ha)
  | cons write writes ih =>
    intro s canonical calibrated coefs outside inCalw hp
    have here : Ref.calw write.1.toNat := inCalw write (List.mem_cons_self)
    have inWindow : (isCalw write.1.toNat || isRaww write.1.toNat) = true := by
      rw [(Laws.isCalw_iff _).mpr here, Bool.true_or]
    have outside' (a : Nat) (ha : ¬ Ref.calw a) :
        Memory.read (Memory.write s.win write.1.toNat write.2) a = Memory.read m a := by
      have other : write.1.toNat ≠ a := fun same => ha (same ▸ here)
      rw [Laws.read_write canonical.1, if_neg other, outside a ha]
    obtain ⟨t, steps, kept⟩ := ih
      { Ref.popped s (writes.map (fun w => Transaction.write w.1 w.2) ++ .write 0x00#8 0x02#8 :: rest) with
        win := Memory.write s.win write.1.toNat write.2 }
      (Laws.wf_write canonical inWindow _) calibrated coefs outside' (fun w hw => inCalw w (List.mem_cons_of_mem _ hw)) rfl
    exact ⟨t, ⟨_, step_write_window hp (.inl here), steps⟩, kept⟩

/-- Settles O21: after DECODE the coefficients hold the window's image, and the writes leave the rest of the window alone. -/
theorem encodeRestoresDecodedBytes : Obligations.EncodeRestoresDecodedBytes := by
  intro s writes rest canonical empty inCalw hp
  have decodes := step_command (i := .decode) hp rfl empty
  obtain ⟨t, steps, kept⟩ := writes_encode_restore (m := s.win) (rest := rest) writes
    (Laws.body .decode (Ref.popped s _)) canonical rfl rfl (fun a _ => rfl) inCalw rfl
  exact ⟨t, ⟨_, decodes, steps⟩, kept⟩

end Sys2Proof.Proofs

/-! Proofs for the statements of 42_temperature.md on the bounds of COMP_T (R101), and of 40_arithmetic.md section 5 on its
results without overflow (R83). -/

namespace Sys2Proof.Proofs

open Sys2Proof.Machine

/-! ### The bounds -/

theorem x_T1_range (s : State) : 0 ≤ Ref.x s 0 ∧ Ref.x s 0 ≤ 65535 := by
  have := s.coef.t1.isLt
  show 0 ≤ (s.coef.t1.toNat : Int) ∧ (s.coef.t1.toNat : Int) ≤ 65535
  omega

theorem x_T2_range (s : State) : -32768 ≤ Ref.x s 1 ∧ Ref.x s 1 ≤ 32767 := Laws.toInt16_range s.coef.t2

theorem x_T3_range (s : State) : -32768 ≤ Ref.x s 2 ∧ Ref.x s 2 ≤ 32767 := Laws.toInt16_range s.coef.t3

/-- A product whose factors' bounds multiply to an S32 is one. -/
theorem inS_mul {a b m n : Int} (ha : |a| ≤ m) (hb : |b| ≤ n) (small : m * n ≤ 2147483647) : Ref.inS (a * b) = true := by
  have bound : |a * b| ≤ m * n := by
    rw [abs_mul]
    exact mul_le_mul ha hb (abs_nonneg b) ((abs_nonneg a).trans ha)
  obtain ⟨low, high⟩ := abs_le.mp bound
  exact (Laws.inS_iff _).mpr (by omega)

/-- From 46341 in magnitude up a difference is too large to square (42_temperature.md R101). -/
theorem temp_overflows {x : Nat → Int} {raw : Int} (large : 46341 ≤ |raw / 16 - x 0|) :
    Ref.overflowed (Ref.temp Ref.wrapS x raw).signed [] = true := by
  have square : 46341 * 46341 ≤ (raw / 16 - x 0) * (raw / 16 - x 0) := by
    rw [← abs_mul_abs_self (raw / 16 - x 0)]
    exact mul_le_mul large large (by norm_num) (abs_nonneg _)
  have misfit : Ref.inS ((raw / 16 - x 0) * (raw / 16 - x 0)) = false := by
    rw [Bool.eq_false_iff, ne_eq, Laws.inS_iff]
    omega
  simp [Ref.overflowed, Ref.temp, misfit]

/-- Small enough differences overflow nothing, whatever T2 and T3 are (42_temperature.md R101). -/
theorem temp_fits {x : Nat → Int} {raw : Int} (t2 : -32768 ≤ x 1 ∧ x 1 ≤ 32767) (t3 : -32768 ≤ x 2 ∧ x 2 ≤ 32767)
    (d : |raw / 8 - x 0 * 2| ≤ 65535) (e : |raw / 16 - x 0| ≤ 16383) :
    Ref.overflowed (Ref.temp Ref.wrapS x raw).signed [] = false := by
  have product := inS_mul d (abs_le.mpr (by omega) : |x 1| ≤ 32768) (by norm_num)
  have square := inS_mul e e (by norm_num)
  have bound : |(raw / 16 - x 0) * (raw / 16 - x 0)| ≤ 16383 * 16383 := by
    rw [abs_mul]
    exact mul_le_mul e e (abs_nonneg _) (by norm_num)
  obtain ⟨low, high⟩ := abs_le.mp bound
  have quotient : |(raw / 16 - x 0) * (raw / 16 - x 0) / 4096| ≤ 65535 := abs_le.mpr (by omega)
  have scaled := inS_mul quotient (abs_le.mpr (by omega) : |x 2| ≤ 32768) (by norm_num)
  simp [Ref.overflowed, Ref.temp, product, square, Laws.wrapS_of_inS square, scaled]

/-- Tenths of a degree from the range of `T_FINE` (42_temperature.md R101). -/
theorem tenths_range {tf : Int} (h : -1179648 ≤ tf ∧ tf ≤ 1179646) : -2304 ≤ Ref.tenths tf ∧ Ref.tenths tf ≤ 2304 := by
  unfold Ref.tenths
  rcases lt_or_ge ((tf * 5 + 128) / 256) 0 with neg | nonneg
  · rw [tdiv_of_neg neg]
    omega
  · rw [Int.tdiv_eq_ediv_of_nonneg nonneg]
    omega

/-- Settles O23: T_FINE is in its range, the rest is arithmetic on it, and the last two clauses are the formula's. -/
theorem temperatureBounds : Obligations.TemperatureBounds := by
  intro s calibrated
  obtain ⟨r, runs, fine, tenths, ovf⟩ := exec_compT_calibrated calibrated
  have range := Laws.temp_range (Ref.x s) (Ref.rawT s)
  have raw := Laws.rawT_range s
  have t1 := x_T1_range s
  have temp := tenths_range range
  rw [← tenths] at temp
  rw [← fine] at range
  have product : Ref.x s 0 * 2 = 2 * Ref.x s 0 := mul_comm _ _
  refine ⟨commitTemp r s, runs, range.1, range.2, ?_, ?_, temp.1, temp.2, by omega, by omega, by omega, by omega,
    fun large => ?overflows, fun clear d e => ?fits⟩
  · rw [Laws.commitTemp_tFine]
    omega
  · rw [Laws.commitTemp_tFine]
    omega
  case overflows => simp [ovf, temp_overflows large]
  case fits => simp [clear, ovf, temp_fits (x_T2_range s) (x_T3_range s) (product ▸ d) e]

/-! ### Exact where nothing overflowed -/

/-- Two wraps that agree on the exact results give one outcome; the exact results are those of the first. -/
theorem temp_wrap_congr {w w' : Int → Int} {x : Nat → Int} {raw : Int}
    (h : ∀ z ∈ (Ref.temp w x raw).signed, w' z = w z) : Ref.temp w' x raw = Ref.temp w x raw := by
  simp only [Ref.temp, List.forall_mem_cons] at h ⊢
  obtain ⟨product, square, scaled, -⟩ := h
  rw [product, square, scaled]

/-- Where nothing overflowed, the unbounded integers are left as they are by the wraps of the block's formula too. -/
theorem id_eq_wrap_of_not_overflowed {signed unsigned : List Int} (h : Ref.overflowed signed unsigned = false) :
    (∀ z ∈ signed, id z = Ref.wrapS z) ∧ ∀ z ∈ unsigned, id z = Ref.wrapU z := by
  obtain ⟨signedFit, unsignedFit⟩ := Laws.wrap_eq_of_not_overflowed h
  exact ⟨fun z hz => (signedFit z hz).symm, fun z hz => (unsignedFit z hz).symm⟩

/-- A command that leaves OVF at 0 has noted no overflow. -/
theorem not_overflowed_of_note {e : ErrStat} {ovf order : Bool} (h : (e.note ovf order).ovf = false) : ovf = false :=
  (Bool.or_eq_false_iff.mp h).2

/-- Settles O25: without an overflow the two wraps agree on every exact result. -/
theorem temperatureExactWithoutOverflow : Obligations.TemperatureExactWithoutOverflow := by
  intro s t calibrated taken clear
  obtain ⟨r, runs, fine, tenths, ovf⟩ := exec_compT_calibrated calibrated
  obtain rfl := Host.Outcome.next.inj (runs.symm.trans taken)
  have fits := ovf.symm.trans (not_overflowed_of_note clear)
  rw [temp_wrap_congr (id_eq_wrap_of_not_overflowed fits).1]
  exact ⟨fine, tenths⟩

end Sys2Proof.Proofs

/-! Proofs for the statements of 43_pressure.md on the zero guard (R111), and of 40_arithmetic.md section 5 on the results of
COMP_P without overflow (R83). -/

namespace Sys2Proof.Proofs

open Sys2Proof.Machine

/-! ### The zero guard -/

/-- The outcome's denominator is the first stage's. -/
theorem press_denominator (w u : Int → Int) (x : Nat → Int) (raw tf : Int) :
    (Ref.press w u x raw tf).denominator = (Ref.pressDenominator w x tf).value := by
  unfold Ref.press
  dsimp only
  split
  · next zero => exact zero.symm
  · rfl

/-- With `P1 = 0` the denominator is 0 whatever else enters it (43_pressure.md R111). -/
theorem pressDenominator_of_P1_zero {x : Nat → Int} (p1 : x 3 = 0) (tf : Int) :
    (Ref.pressDenominator Ref.wrapS x tf).value = 0 := by
  simp [Ref.pressDenominator, Ref.wrapS, p1]

/-- The example of 43_pressure.md R111: P1 need not be 0 for the guard. -/
theorem pressDenominator_example {x : Nat → Int} (p1 : x 3 = 1) (p2 : x 4 = -1) (p3 : x 5 = 0) :
    (Ref.pressDenominator Ref.wrapS x 128422).value = 0 := by
  simp [Ref.pressDenominator, Ref.pressV, Ref.wrapS, p1, p2, p3]

/-- The divisor of the finishing formulas is 0 only where the denominator is. -/
theorem divisor_ne_zero {s : State} (h : (Ref.pressDenominator Ref.wrapS (Ref.x s) s.tFine.toInt).value ≠ 0) :
    (s2u (pressFirst s.tFine s.coef).v1).val.toNat ≠ 0 := by
  obtain ⟨-, v1, -⟩ := Laws.pressFirst_spec s.tFine s
  obtain ⟨bits, -⟩ := conversionsKeepTheBits (pressFirst s.tFine s.coef).v1
  rw [bits]
  intro zero
  apply h
  rw [← v1, BitVec.eq_of_toNat_eq (y := 0#32) zero]
  rfl

/-- Settles O27: the guard is taken exactly where the denominator is 0, and its result is 0. -/
theorem zeroGuardPreventsDivision : Obligations.ZeroGuardPreventsDivision := by
  intro s calibrated
  obtain ⟨r, runs, press, guard, -⟩ := Laws.pressBody_spec s
  obtain ⟨-, -, sentinel⟩ := Laws.press_range (Ref.x s) (Ref.rawP s) s.tFine.toInt
  rw [press_denominator] at guard sentinel
  have taken (zero : (Ref.pressDenominator Ref.wrapS (Ref.x s) s.tFine.toInt).value = 0) :
      r.press = 0 ∧ r.guard = true := by
    refine ⟨BitVec.eq_of_toNat_eq ?_, by rw [guard, zero]; rfl⟩
    exact_mod_cast press.trans (sentinel zero)
  refine ⟨commitPress r s, runs ▸ exec_compP_calibrated calibrated, fun p1 => taken (pressDenominator_of_P1_zero p1 _),
    fun p1 p2 p3 fine => taken ?_, fun guarded => (taken ?_).1, fun unguarded => divisor_ne_zero ?_⟩
  · rw [fine]
    exact pressDenominator_example p1 p2 p3
  · exact of_decide_eq_true (guard.symm.trans guarded)
  · exact of_decide_eq_false (guard.symm.trans unguarded)

/-! ### Exact where nothing overflowed -/

section WrapCongr

/-! Two wraps that agree on the exact results of a stage give the same stage. -/

variable {w w' u u' : Int → Int} {x : Nat → Int}

theorem pressSq_wrap_congr {tf : Int} (hv : w' (tf / 2 - 64000) = w (tf / 2 - 64000))
    (hq : w' (Ref.pressV w tf / 4 * (Ref.pressV w tf / 4)) = w (Ref.pressV w tf / 4 * (Ref.pressV w tf / 4))) :
    Ref.pressV w' tf = Ref.pressV w tf ∧ Ref.pressSq w' tf = Ref.pressSq w tf := by
  have v : Ref.pressV w' tf = Ref.pressV w tf := hv
  exact ⟨v, by rw [Ref.pressSq, Ref.pressSq, v, hq]⟩

theorem pressV2_wrap_congr {tf : Int} (v : Ref.pressV w' tf = Ref.pressV w tf)
    (sq : Ref.pressSq w' tf = Ref.pressSq w tf) (h : ∀ z ∈ (Ref.pressV2 w x tf).signed, w' z = w z) :
    Ref.pressV2 w' x tf = Ref.pressV2 w x tf := by
  simp only [Ref.pressV2, List.forall_mem_cons] at h ⊢
  simp only [v, sq, h]

theorem pressDenominator_wrap_congr {tf : Int} (v : Ref.pressV w' tf = Ref.pressV w tf)
    (sq : Ref.pressSq w' tf = Ref.pressSq w tf) (h : ∀ z ∈ (Ref.pressDenominator w x tf).signed, w' z = w z) :
    Ref.pressDenominator w' x tf = Ref.pressDenominator w x tf := by
  simp only [Ref.pressDenominator, List.forall_mem_cons] at h ⊢
  simp only [v, sq, h]

theorem pressAccumulator_wrap_congr {raw v2 : Int} (h : ∀ z ∈ (Ref.pressAccumulator w u raw v2).signed, w' z = w z)
    (hu : ∀ z ∈ (Ref.pressAccumulator w u raw v2).unsigned, u' z = u z) :
    Ref.pressAccumulator w' u' raw v2 = Ref.pressAccumulator w u raw v2 := by
  simp only [Ref.pressAccumulator, List.forall_mem_cons] at h hu ⊢
  simp only [h, hu]

theorem pressFinish_wrap_congr {p dv : Int} (hu : ∀ z ∈ (Ref.pressFinish u p dv).unsigned, u' z = u z) :
    Ref.pressFinish u' p dv = Ref.pressFinish u p dv := by
  unfold Ref.pressFinish at hu ⊢
  split at hu <;> simp only [List.forall_mem_cons] at hu <;> simp [*]

theorem pascal_wrap_congr {q : Int} (h : ∀ z ∈ (Ref.pascal w u x q).signed, w' z = w z)
    (hu : ∀ z ∈ (Ref.pascal w u x q).unsigned, u' z = u z) : Ref.pascal w' u' x q = Ref.pascal w u x q := by
  simp only [Ref.pascal, List.forall_mem_cons] at h hu ⊢
  simp only [h, hu]

/-- Two pairs of wraps that agree on the exact results give one outcome, stage by stage. -/
theorem press_wrap_congr {raw tf : Int} (h : ∀ z ∈ (Ref.press w u x raw tf).signed, w' z = w z)
    (hu : ∀ z ∈ (Ref.press w u x raw tf).unsigned, u' z = u z) :
    Ref.press w' u' x raw tf = Ref.press w u x raw tf := by
  have first : ∀ z ∈ [tf / 2 - 64000, Ref.pressV w tf / 4 * (Ref.pressV w tf / 4)] ++ (Ref.pressV2 w x tf).signed ++
      (Ref.pressDenominator w x tf).signed, w' z = w z := by
    intro z hz
    apply h
    unfold Ref.press
    dsimp only
    split
    · exact hz
    · exact List.mem_append_left _ (List.mem_append_left _ hz)
  simp only [List.forall_mem_append, List.forall_mem_cons] at first
  obtain ⟨⟨⟨hv, hq, -⟩, hv2⟩, hv1⟩ := first
  obtain ⟨v, sq⟩ := pressSq_wrap_congr hv hq
  unfold Ref.press at h hu ⊢
  dsimp only at h hu ⊢
  rw [v, pressV2_wrap_congr v sq hv2, pressDenominator_wrap_congr v sq hv1]
  split
  · rfl
  · next nonzero =>
    simp only [if_neg nonzero, List.forall_mem_append, List.forall_mem_cons] at h hu
    obtain ⟨⟨-, acc⟩, pascal⟩ := h
    obtain ⟨⟨accU, divisor, finish⟩, pascalU⟩ := hu
    rw [pressAccumulator_wrap_congr acc accU, divisor, pressFinish_wrap_congr finish, pascal_wrap_congr pascal pascalU]

end WrapCongr

/-- Settles O29: without an overflow the wraps agree on every exact result. -/
theorem pressureExactWithoutOverflow : Obligations.PressureExactWithoutOverflow := by
  intro s t calibrated taken clear
  obtain ⟨r, runs, press, guard, ovf⟩ := Laws.pressBody_spec s
  obtain rfl := Host.Outcome.next.inj ((exec_compP_calibrated calibrated).symm.trans taken)
  rw [runs] at clear ⊢
  obtain ⟨signed, unsigned⟩ := id_eq_wrap_of_not_overflowed (ovf.symm.trans (not_overflowed_of_note clear))
  rw [press_wrap_congr signed unsigned]
  refine ⟨press, ?_⟩
  rw [Laws.commitPress_status, guard, decide_eq_true_iff]

end Sys2Proof.Proofs

/-! Proofs for the statements of 44_humidity.md on the clamp (R121, R123), and of 40_arithmetic.md section 5 on the results of
COMP_H without overflow (R83). -/

namespace Sys2Proof.Proofs

open Sys2Proof.Machine

/-! ### The clamp -/

/-- With H1 to H6 all 0 the second factor of `v` is 0, and 0 is what the clamp passes on (44_humidity.md R123). -/
theorem hum_of_zero {x : Nat → Int} (zero : ∀ i, 12 ≤ i → i ≤ 17 → x i = 0) (raw tf : Int) :
    (Ref.hum Ref.wrapS x raw tf).hum = 0 := by
  have wrap0 : Ref.wrapS 0 = 0 := by decide
  have wrap8192 : Ref.wrapS 8192 = 8192 := by decide
  simp [Ref.hum, zero 12 (by decide) (by decide), zero 13 (by decide) (by decide), wrap0, wrap8192]

/-- Settles O31: the formula's value is a percentage whatever its operands are, in COMP_H and in SAMPLE. -/
theorem humidityIsClamped : Obligations.HumidityIsClamped := by
  refine fun s calibrated => ⟨?compH, ?sample⟩
  case compH =>
    obtain ⟨r, runs, hum, -⟩ := exec_compH_calibrated calibrated
    have range := Laws.hum_range Ref.wrapS (Ref.x s) (Ref.rawH s) s.tFine.toInt
    refine ⟨commitHum r s, runs, by rw [Laws.commitHum_hum]; omega, fun zero => BitVec.eq_of_toNat_eq ?_⟩
    rw [hum_of_zero zero] at hum
    exact_mod_cast hum
  case sample =>
    obtain ⟨t, runs, -, -, -, hum, -⟩ := (sampleComputesAllThree.2 s).2 calibrated
    have range := Laws.hum_range Ref.wrapS (Ref.x s) (Ref.rawH s) (Ref.temp Ref.wrapS (Ref.x s) (Ref.rawT s)).tFine
    exact ⟨t, runs, by omega⟩

/-! ### Exact where nothing overflowed -/

/-- Two wraps that agree on the exact results give one outcome; the exact results are those of the first. -/
theorem hum_wrap_congr {w w' : Int → Int} {x : Nat → Int} {raw tf : Int}
    (h : ∀ z ∈ (Ref.hum w x raw tf).signed, w' z = w z) : Ref.hum w' x raw tf = Ref.hum w x raw tf := by
  simp only [Ref.hum, List.forall_mem_cons] at h ⊢
  simp only [h]

/-- Settles O33: without an overflow the two wraps agree on every exact result. -/
theorem humidityExactWithoutOverflow : Obligations.HumidityExactWithoutOverflow := by
  intro s t calibrated taken clear
  obtain ⟨r, runs, hum, ovf⟩ := exec_compH_calibrated calibrated
  obtain rfl := Host.Outcome.next.inj (runs.symm.trans taken)
  rw [hum_wrap_congr (id_eq_wrap_of_not_overflowed (ovf.symm.trans (not_overflowed_of_note clear))).1]
  exact hum

end Sys2Proof.Proofs

/-! Proofs for the statements of 45_system.md: SAMPLE as three commands (R131), RESET (R132). -/

namespace Sys2Proof.Proofs

open Sys2Proof.Machine

/-! ### SAMPLE as three commands -/

/-- No body but RESET's clears CAL_VALID (45_system.md R132). -/
theorem body_keeps_calValid {i : Instr} (hi : i ≠ .reset) {s : State} (calibrated : s.status.calValid = true) :
    (Laws.body i s).status.calValid = true := by
  cases i with
  | nop => exact calibrated
  | decode => rw [Laws.body, Laws.decodeBody_status]
  | encode => rw [Laws.body, Laws.encodeBody_status, calibrated]
  | compT =>
    obtain ⟨r, runs, -⟩ := Laws.tempBody_spec s
    rw [Laws.body, runs, Laws.commitTemp_status, calibrated]
  | compP =>
    obtain ⟨r, runs, -⟩ := Laws.pressBody_spec s
    rw [Laws.body, runs, Laws.commitPress_status, calibrated]
  | compH =>
    obtain ⟨r, runs, -⟩ := Laws.humBody_spec s
    rw [Laws.body, runs, Laws.commitHum_status, calibrated]
  | sample =>
    obtain ⟨rt, rp, rh, runs, -⟩ := Laws.sampleBody_spec s
    rw [Laws.body, runs, commitSample_eq, calibrated]
  | reset => exact absurd rfl hi

/-- Settles O35: SAMPLE's body is the three bodies in order, and the calibration lasts through all of them. -/
theorem sampleEqualsThreeCommands : Obligations.SampleEqualsThreeCommands := by
  intro s calibrated
  have calibrated1 : (tempBody s).status.calValid = true := body_keeps_calValid (i := .compT) nofun calibrated
  have calibrated2 : (pressBody (tempBody s)).status.calValid = true :=
    body_keeps_calValid (i := .compP) nofun calibrated1
  refine ⟨tempBody s, pressBody (tempBody s), sampleBody s, ?temp, exec_compP_calibrated calibrated1, ?hum,
    exec_sample_calibrated calibrated, ?order⟩
  case temp => exact Laws.exec_runs (i := .compT) (by simp [Laws.refusedForSequence, calibrated])
  case hum => exact Laws.exec_runs (i := .compH) (by simp [Laws.refusedForSequence, calibrated2])
  case order =>
    obtain ⟨ovf, notes⟩ := body_errstat (i := .sample) nofun s
    rw [Laws.body] at notes
    simp [notes]

/-! ### RESET -/

/-- Every coefficient reads 0 in the reset state, whichever way the parameter reads H6. -/
theorem x_toReset (s : State) (i : Nat) : Ref.x (toReset s) i = 0 := by
  have h6 : (if s.h6Signed then (0 : BitVec 8).toInt else ((0 : BitVec 8).toNat : Int)) = 0 := ite_self 0
  unfold Ref.x
  split <;> first | rfl | exact h6

/-- Settles O36: RESET's body is the reset state, and of the others a refusal sets a flag and a run notes some. -/
theorem resetCommandClearsEverything : Obligations.ResetCommandClearsEverything := by
  obtain ⟨-, -, -, -, -, -, status, errstat, -⟩ := resetValues
  refine ⟨rfl, fun s => ⟨toReset s, rfl, Laws.read_nil, x_toReset s, rfl, rfl, rfl, rfl, status, errstat, rfl, rfl⟩,
    fun i s t taken hi => ?_⟩
  rw [Laws.exec_eq] at taken
  obtain rfl := Host.Outcome.next.inj taken
  split
  · exact ⟨id, keepsFlags_refuse s.errstat .errSeq⟩
  · obtain ⟨ovf, notes⟩ := body_errstat hi s
    rw [notes]
    exact ⟨body_keeps_calValid hi, keepsFlags_note s.errstat ovf _⟩

end Sys2Proof.Proofs

/-! Proofs for the statements of 70_reset_and_hazards.md: reset (R160, R162, R163), ignored bits (R172), completion (R173). -/

namespace Sys2Proof.Proofs

open Sys2Proof.Machine

/-! ### Every transaction completes -/

/-- No command writes the host's side of the state or the parameter (log entries 1 to 3). -/
theorem body_host (i : Instr) (s : State) :
    (Laws.body i s).pending = s.pending ∧ (Laws.body i s).reply = s.reply ∧ (Laws.body i s).h6Signed = s.h6Signed := by
  cases i with
  | nop => exact ⟨rfl, rfl, rfl⟩
  | decode => simp [Laws.body]
  | encode => simp [Laws.body]
  | compT =>
    obtain ⟨r, runs, -⟩ := Laws.tempBody_spec s
    simp [Laws.body, runs]
  | compP =>
    obtain ⟨r, runs, -⟩ := Laws.pressBody_spec s
    simp [Laws.body, runs]
  | compH =>
    obtain ⟨r, runs, -⟩ := Laws.humBody_spec s
    simp [Laws.body, runs]
  | sample =>
    obtain ⟨rt, rp, rh, runs, -⟩ := Laws.sampleBody_spec s
    simp [Laws.body, runs]
  | reset => exact ⟨rfl, rfl, rfl⟩

/-- A transaction leaves the host's queue and the parameter as they are, and only a read answers. -/
theorem after_host (tr : Transaction) (u : State) :
    (Laws.after tr u).pending = u.pending ∧ (Laws.after tr u).h6Signed = u.h6Signed ∧
      ((∃ a, tr = .read a) ∧ (Laws.after tr u).reply.isSome = true ∨
        (∀ a, tr ≠ .read a) ∧ (Laws.after tr u).reply = u.reply) := by
  rcases Laws.after_cases tr u with ⟨resets, e⟩ | ⟨a, rfl, -, e⟩ | ⟨a, rfl, -, e⟩ | ⟨a, d, rfl, -, e⟩ |
    ⟨a, d, rfl, -, -, e⟩ | ⟨d, rfl, -, e⟩ | ⟨i, rfl, -, -, e⟩ | ⟨i, rfl, -, -, e⟩ <;> rw [e]
  · exact ⟨rfl, rfl, .inr ⟨by rcases resets with rfl | rfl <;> nofun, rfl⟩⟩
  · exact ⟨rfl, rfl, .inl ⟨⟨a, rfl⟩, rfl⟩⟩
  · exact ⟨rfl, rfl, .inl ⟨⟨a, rfl⟩, rfl⟩⟩
  · exact ⟨rfl, rfl, .inr ⟨nofun, rfl⟩⟩
  · exact ⟨rfl, rfl, .inr ⟨nofun, rfl⟩⟩
  · exact ⟨rfl, rfl, .inr ⟨nofun, rfl⟩⟩
  · exact ⟨rfl, rfl, .inr ⟨nofun, rfl⟩⟩
  · obtain ⟨pending, reply, parameter⟩ := body_host i u
    exact ⟨pending, parameter, .inr ⟨nofun, reply⟩⟩

/-- Settles O11: with nothing pending the step idles; otherwise the queue is the popped one. -/
theorem everyTransactionCompletes : Obligations.EveryTransactionCompletes := by
  intro s
  cases hp : s.pending with
  | nil => exact ⟨s, Laws.step_nil hp, hp, fun _ => rfl, nofun, nofun⟩
  | cons tr rest =>
    obtain ⟨pending, -, reply⟩ := after_host tr (Ref.popped s rest)
    refine ⟨_, Laws.step_cons hp, pending, nofun, fun a rest' h => ?read, fun a d rest' h => ?write⟩
    case read =>
      obtain ⟨rfl, -⟩ := List.cons.inj h
      exact (reply.resolve_right fun ⟨other, _⟩ => other a rfl).2
    case write =>
      obtain ⟨rfl, -⟩ := List.cons.inj h
      exact (reply.resolve_left fun ⟨⟨b, h⟩, _⟩ => nomatch h).2

/-! ### Reset -/

/-- `Reset` and the write of RESET to CMD leave the reset state (70_reset_and_hazards.md R160, R162). -/
theorem after_resets {tr : Transaction} (h : Ref.resets tr) (u : State) : Laws.after tr u = toReset u := by
  rcases h with rfl | rfl <;> rfl

/-- The step that resets, from any state (70_reset_and_hazards.md R160). -/
theorem step_resets {s : State} {tr : Transaction} {rest : List Transaction} (h : Ref.resets tr)
    (hp : s.pending = tr :: rest) :
    step s = .next { State.reset with h6Signed := s.h6Signed, pending := rest, reply := none } := by
  rw [Laws.step_cons hp, after_resets h]
  rfl

/-- Settles O38: what a reset leaves names nothing of the state before but the parameter and the queue. -/
theorem resetForgetsEverything : Obligations.ResetForgetsEverything := by
  refine ⟨fun s tr rest h hp => step_resets h hp, fun s s' tr tr' rest h h' parameter hp hp' => ?_⟩
  rw [step_resets h hp, step_resets h' hp', parameter]

/-! ### What the bodies read

A change of the window or of the parameter in nothing that a body reads leaves its result as it is. The result is a variable, as
in `Laws.tempBody_spec`, so that no proof unfolds a formula. -/

/-- COMP_T reads the window's temperature sample alone, and not the parameter. -/
theorem tempBody_result {s : State} {w : Memory} (sample : rawT w = rawT s.win) (b : Bool) :
    ∃ r, tempBody s = commitTemp r s ∧
      tempBody { s with win := w, h6Signed := b } = commitTemp r { s with win := w, h6Signed := b } :=
  ⟨_, rfl, by rw [tempBody, sample]⟩

/-- COMP_P reads the window's pressure sample alone, and not the parameter. -/
theorem pressBody_result {s : State} {w : Memory} (sample : rawP w = rawP s.win) (b : Bool) :
    ∃ r, pressBody s = commitPress r s ∧
      pressBody { s with win := w, h6Signed := b } = commitPress r { s with win := w, h6Signed := b } :=
  ⟨_, rfl, by rw [pressBody, sample]⟩

/-- COMP_H reads the window's humidity sample alone; the parameter it reads. -/
theorem humBody_result {s : State} {w : Memory} (sample : rawH w = rawH s.win) :
    ∃ r, humBody s = commitHum r s ∧ humBody { s with win := w } = commitHum r { s with win := w } :=
  ⟨_, rfl, by rw [humBody, sample]⟩

/-! ### Ignored bits -/

/-- Two windows that differ at most in the low four bits of `W[0xF9]` and `W[0xFC]` (70_reset_and_hazards.md R172). -/
structure SameSamples (w w' : Memory) : Prop where
  others : ∀ a : Nat, a ≠ 0xF9 → a ≠ 0xFC → Memory.read w a = Memory.read w' a
  highP : (Memory.read w 0xF9).extractLsb' 4 4 = (Memory.read w' 0xF9).extractLsb' 4 4
  highT : (Memory.read w 0xFC).extractLsb' 4 4 = (Memory.read w' 0xFC).extractLsb' 4 4

section SameSamples

variable {w w' : Memory} (h : SameSamples w w')

include h

theorem rawT_eq_of_sameSamples : rawT w = rawT w' := by
  rw [rawT, h.others 0xFA (by decide) (by decide), h.others 0xFB (by decide) (by decide), h.highT, rawT]

theorem rawP_eq_of_sameSamples : rawP w = rawP w' := by
  rw [rawP, h.others 0xF7 (by decide) (by decide), h.others 0xF8 (by decide) (by decide), h.highP, rawP]

theorem rawH_eq_of_sameSamples : rawH w = rawH w' := by
  rw [rawH, h.others 0xFD (by decide) (by decide), h.others 0xFE (by decide) (by decide), rawH]

/-- Neither byte is a calibration byte. -/
theorem dec_eq_of_sameSamples : dec w = dec w' :=
  dec_congr fun a ha => h.others a (by unfold Ref.calw at ha; omega) (by unfold Ref.calw at ha; omega)

end SameSamples

/-- No body reads the ignored bits. -/
theorem body_sameSamples {s : State} {w : Memory} (h : SameSamples w s.win) (i : Instr) :
    ∃ w', Laws.body i { s with win := w } = { Laws.body i s with win := w' } := by
  cases i with
  | nop => exact ⟨w, rfl⟩
  | decode => exact ⟨w, by simp only [Laws.body, decodeBody, dec_eq_of_sameSamples h]⟩
  | encode =>
    obtain ⟨w1, e1, -⟩ := Laws.encodeBody_spec { s with win := w }
    obtain ⟨w2, e2, -⟩ := Laws.encodeBody_spec s
    exact ⟨w1, by rw [Laws.body, e1, e2]⟩
  | compT =>
    obtain ⟨r, e, e'⟩ := tempBody_result (rawT_eq_of_sameSamples h) s.h6Signed
    exact ⟨w, by rw [Laws.body, e]; exact e'⟩
  | compP =>
    obtain ⟨r, e, e'⟩ := pressBody_result (rawP_eq_of_sameSamples h) s.h6Signed
    exact ⟨w, by rw [Laws.body, e]; exact e'⟩
  | compH =>
    obtain ⟨r, e, e'⟩ := humBody_result (rawH_eq_of_sameSamples h)
    exact ⟨w, by rw [Laws.body, e]; exact e'⟩
  | sample =>
    obtain ⟨rt, et, et'⟩ := tempBody_result (rawT_eq_of_sameSamples h) s.h6Signed
    obtain ⟨rp, ep, ep'⟩ := pressBody_result (s := commitTemp rt s) (rawP_eq_of_sameSamples h) s.h6Signed
    obtain ⟨rh, eh, eh'⟩ := humBody_result (s := commitPress rp (commitTemp rt s)) (rawH_eq_of_sameSamples h)
    refine ⟨w, ?_⟩
    rw [Laws.body, sampleBody, sampleBody, et, ep, eh]
    exact (congrArg humBody ((congrArg pressBody et').trans ep')).trans eh'
  | reset => exact ⟨[], rfl⟩

/-- Settles O47: the sequence check does not look at the window, and the bodies read none of the ignored bits. -/
theorem ignoredBitsEnterNothing : Obligations.IgnoredBitsEnterNothing := by
  intro i s w others highP highT
  have check : Laws.refusedForSequence i { s with win := w } = Laws.refusedForSequence i s := by cases i <;> rfl
  refine ⟨_, _, Laws.exec_eq i s, Laws.exec_eq i { s with win := w }, ?_⟩
  rw [check]
  split
  · rfl
  · obtain ⟨w', e⟩ := body_sameSamples ⟨others, highP, highT⟩ i
    rw [e]

end Sys2Proof.Proofs

/-! Proofs for the statements on the invariant of the whole machine (10_state.md section 8): it holds at reset, and every step
keeps it. One lemma for each way a state can change; a transaction is one of these (`Laws.after_cases`). -/

namespace Sys2Proof.Proofs

open Sys2Proof.Machine

/-! ### The changes that are no command's -/

/-- Settles O44: every field of the reset state is a literal. -/
theorem resetMeetsTheInvariant : Obligations.ResetMeetsTheInvariant := by
  unfold Obligations.ResetMeetsTheInvariant
  constructor <;> decide

/-- The invariant is about the block: the queue and the answer, which are the host's, do not enter it. -/
theorem inv_host {s : State} (h : s.Inv) (pending : List Transaction) (reply : Option Byte) :
    State.Inv { s with pending := pending, reply := reply } := { h with }

theorem inv_toReset (s : State) : (toReset s).Inv := { resetMeetsTheInvariant with }

/-- A refusal sets a flag that the invariant does not mention. -/
theorem inv_raise {s : State} (h : s.Inv) (f : RefusalFlag) : (raise f s).Inv := by
  cases f <;> exact { h with }

theorem inv_window {s : State} (h : s.Inv) {w : Memory} (hw : Memory.wf w) : State.Inv { s with win := w } :=
  { h with winWf := hw }

/-! ### The commits of the computing commands -/

theorem inv_commitTemp {s : State} (h : s.Inv) (calibrated : s.status.calValid = true) {r : TempResult}
    (range : -1179648 ≤ r.tFine.toInt ∧ r.tFine.toInt ≤ 1179646) (tenths : r.temp.toInt = Ref.tenths r.tFine.toInt) :
    (commitTemp r s).Inv := by
  rw [commitTemp_eq]
  exact { h with
    uncalibrated := fun empty => absurd (calibrated.symm.trans empty) (by decide)
    noTemp := nofun
    tFineRange := range
    tempOfTFine := tenths
    ovfCause := fun _ => .inl rfl }

theorem inv_commitPress {s : State} (h : s.Inv) (calibrated : s.status.calValid = true) {r : PressResult}
    (guarded : r.guard = true → r.press = 0) (range : r.press.toNat ≤ 42949672) : (commitPress r s).Inv :=
  { h with
    uncalibrated := fun empty => absurd (calibrated.symm.trans empty) (by decide)
    noPress := nofun
    guardZero := guarded
    pressRange := range
    ovfCause := fun _ => .inr (.inl rfl)
    orderCause := fun _ => .inl rfl }

theorem inv_commitHum {s : State} (h : s.Inv) (calibrated : s.status.calValid = true) {r : HumResult}
    (range : r.val.toNat ≤ 100) : (commitHum r s).Inv :=
  { h with
    uncalibrated := fun empty => absurd (calibrated.symm.trans empty) (by decide)
    noHum := nofun
    humRange := range
    ovfCause := fun _ => .inr (.inr rfl)
    orderCause := fun _ => .inr rfl }

/-! ### The bodies of the commands -/

theorem inv_decodeBody {s : State} (h : s.Inv) : (decodeBody s).Inv := by
  unfold decodeBody
  exact { h with uncalibrated := nofun }

theorem inv_encodeBody {s : State} (h : s.Inv) : (encodeBody s).Inv := by
  obtain ⟨w, e, written⟩ := Laws.encodeBody_spec s
  have canonical := wf_writeAll_enc h.winWf s.coef
  rw [← written] at canonical
  rw [e]
  exact inv_window h canonical

theorem inv_tempBody {s : State} (h : s.Inv) (calibrated : s.status.calValid = true) : (tempBody s).Inv := by
  obtain ⟨r, e, fine, tenths, -⟩ := Laws.tempBody_spec s
  rw [e]
  refine inv_commitTemp h calibrated ?_ ?_
  · rw [fine]
    exact Laws.temp_range _ _
  · rw [fine, tenths]

theorem inv_pressBody {s : State} (h : s.Inv) (calibrated : s.status.calValid = true) : (pressBody s).Inv := by
  obtain ⟨r, e, press, guard, -⟩ := Laws.pressBody_spec s
  obtain ⟨-, high, sentinel⟩ := Laws.press_range (Ref.x s) (Ref.rawP s) s.tFine.toInt
  rw [e]
  refine inv_commitPress h calibrated (fun guarded => ?_) (by omega)
  have zero := press.trans (sentinel (of_decide_eq_true (guard.symm.trans guarded)))
  exact BitVec.eq_of_toNat_eq (by exact_mod_cast zero)

theorem inv_humBody {s : State} (h : s.Inv) (calibrated : s.status.calValid = true) : (humBody s).Inv := by
  obtain ⟨r, e, hum, -⟩ := Laws.humBody_spec s
  obtain ⟨-, high⟩ := Laws.hum_range Ref.wrapS (Ref.x s) (Ref.rawH s) s.tFine.toInt
  rw [e]
  exact inv_commitHum h calibrated (by omega)

/-- Neither of the first two parts of a sample takes the calibration away from the part after it. -/
theorem inv_sampleBody {s : State} (h : s.Inv) (calibrated : s.status.calValid = true) : (sampleBody s).Inv := by
  have afterTemp : (tempBody s).status.calValid = true := by
    obtain ⟨r, e, -⟩ := Laws.tempBody_spec s
    rw [e]
    exact calibrated
  have afterPress : (pressBody (tempBody s)).status.calValid = true := by
    obtain ⟨r, e, -⟩ := Laws.pressBody_spec (tempBody s)
    rw [e]
    exact afterTemp
  exact inv_humBody (inv_pressBody (inv_tempBody h calibrated) afterTemp) afterPress

/-- A command that passes its sequence check keeps the invariant. -/
theorem inv_body {s : State} (h : s.Inv) {i : Instr} (passes : Laws.refusedForSequence i s = false) :
    (Laws.body i s).Inv := by
  cases i with
  | nop => exact h
  | decode => exact inv_decodeBody h
  | encode => exact inv_encodeBody h
  | compT => exact inv_tempBody h (by simpa [Laws.refusedForSequence] using passes)
  | compP => exact inv_pressBody h (by simpa [Laws.refusedForSequence] using passes)
  | compH => exact inv_humBody h (by simpa [Laws.refusedForSequence] using passes)
  | sample => exact inv_sampleBody h (by simpa [Laws.refusedForSequence] using passes)
  | reset => exact inv_toReset s

/-! ### The statement -/

/-- Every transaction keeps the invariant, case by case of what it can leave. -/
theorem inv_after {u : State} (h : u.Inv) (tr : Transaction) : (Laws.after tr u).Inv := by
  rcases Laws.after_cases tr u with ⟨-, e⟩ | ⟨a, -, -, e⟩ | ⟨a, -, -, e⟩ | ⟨a, d, -, inWindow, e⟩ | ⟨a, d, -, -, -, e⟩ |
    ⟨d, -, -, e⟩ | ⟨i, -, -, -, e⟩ | ⟨i, -, -, passes, e⟩ <;> rw [e]
  · exact inv_toReset u
  · exact inv_host h u.pending _
  · exact inv_host (inv_raise h .errAddr) u.pending _
  · rw [← Laws.isCalw_iff, ← Laws.isRaww_iff, ← Bool.or_eq_true] at inWindow
    exact inv_window h (Laws.wf_write h.winWf inWindow d)
  · exact inv_raise h .errAddr
  · exact inv_raise h .errCmd
  · exact inv_raise h .errSeq
  · exact inv_body h passes

/-- Settles O45: a step idles or is a transaction on the state the queue's head has left. -/
theorem stepKeepsTheInvariant : Obligations.StepKeepsTheInvariant := by
  intro s t h taken
  rcases Laws.step_cases taken with ⟨-, rfl⟩ | ⟨tr, rest, -, rfl⟩
  · exact h
  · exact inv_after (inv_host h rest none) tr

end Sys2Proof.Proofs

/-! Proofs for the statement of 10_state.md section 9 on who may write what. -/

namespace Sys2Proof.Proofs

open Sys2Proof.Machine

/-! ### Taking a transaction from the queue leaves the block as it is -/

@[simp] theorem popped_win (s : State) (rest : List Transaction) : (Ref.popped s rest).win = s.win := rfl
@[simp] theorem popped_coef (s : State) (rest : List Transaction) : (Ref.popped s rest).coef = s.coef := rfl
@[simp] theorem popped_tFine (s : State) (rest : List Transaction) : (Ref.popped s rest).tFine = s.tFine := rfl
@[simp] theorem popped_temp (s : State) (rest : List Transaction) : (Ref.popped s rest).temp = s.temp := rfl
@[simp] theorem popped_press (s : State) (rest : List Transaction) : (Ref.popped s rest).press = s.press := rfl
@[simp] theorem popped_hum (s : State) (rest : List Transaction) : (Ref.popped s rest).hum = s.hum := rfl
@[simp] theorem popped_status (s : State) (rest : List Transaction) : (Ref.popped s rest).status = s.status := rfl
@[simp] theorem popped_errstat (s : State) (rest : List Transaction) : (Ref.popped s rest).errstat = s.errstat := rfl
@[simp] theorem popped_h6Signed (s : State) (rest : List Transaction) : (Ref.popped s rest).h6Signed = s.h6Signed := rfl

/-! ### What a transaction can write -/

/-- Everything of the block but the three refusal flags is as it was. -/
structure SameBlock (s t : State) : Prop where
  win : t.win = s.win
  coef : t.coef = s.coef
  tFine : t.tFine = s.tFine
  temp : t.temp = s.temp
  press : t.press = s.press
  hum : t.hum = s.hum
  status : t.status = s.status
  ovf : t.errstat.ovf = s.errstat.ovf
  order : t.errstat.order = s.errstat.order

/-- A refusal sets its own flag alone, and an answer is not the block's. -/
theorem sameBlock_raise (s : State) (f : RefusalFlag) (reply : Option Byte) :
    SameBlock s { raise f s with reply := reply } := by
  cases f <;> exact ⟨rfl, rfl, rfl, rfl, rfl, rfl, rfl, rfl, rfl⟩

/-- The eight cases of `Laws.after_cases`, by what they can write: anything, nothing, one window byte, what the command does. -/
theorem after_writes (tr : Transaction) (u : State) :
    Ref.resets tr ∨ SameBlock u (Laws.after tr u) ∨
    (∃ a d, tr = .write a d ∧ (Ref.calw a.toNat ∨ Ref.raww a.toNat) ∧
      Laws.after tr u = { u with win := Memory.write u.win a.toNat d }) ∨
    (∃ i, tr = .write 0x00#8 (encode i) ∧ i ≠ .reset ∧ Laws.refusedForSequence i u = false ∧
      Laws.after tr u = Laws.body i u) := by
  rcases Laws.after_cases tr u with ⟨resets, -⟩ | ⟨a, -, -, e⟩ | ⟨a, -, -, e⟩ | window | ⟨a, d, -, -, -, e⟩ |
    ⟨d, -, -, e⟩ | ⟨i, -, -, -, e⟩ | command
  · exact .inl resets
  · exact .inr (.inl (e ▸ ⟨rfl, rfl, rfl, rfl, rfl, rfl, rfl, rfl, rfl⟩))
  · exact .inr (.inl (e ▸ sameBlock_raise u .errAddr _))
  · exact .inr (.inr (.inl window))
  · exact .inr (.inl (e ▸ sameBlock_raise u .errAddr u.reply))
  · exact .inr (.inl (e ▸ sameBlock_raise u .errCmd u.reply))
  · exact .inr (.inl (e ▸ sameBlock_raise u .errSeq u.reply))
  · exact .inr (.inr (.inr command))

/-- Settles O46: what a transaction writes is one of four, and each command's body says what it writes. -/
theorem onlyTheListedTransactionsWrite : Obligations.OnlyTheListedTransactionsWrite := by
  intro s t tr rest hp taken canonical
  obtain rfl := Host.Outcome.next.inj ((Laws.step_cons hp).symm.trans taken)
  have parameter : (Laws.after tr (Ref.popped s rest)).h6Signed = s.h6Signed := (after_host tr _).2.1
  rcases after_writes tr (Ref.popped s rest) with resets | ⟨win, coef, tFine, temp, press, hum, status, ovf, order⟩ |
    ⟨a, d, rfl, inWindow, e⟩ | ⟨i, rfl, hi, passes, e⟩
  · simp only [resets, or_true, implies_true, true_and]
    exact parameter
  · simp [win, coef, tFine, temp, press, hum, status, ovf, order, parameter]
  · have byte (b : Nat) : Memory.read (Memory.write s.win a.toNat d) b ≠ Memory.read s.win b → b = a.toNat := by
      rw [Laws.read_write canonical.1]
      intro changed
      by_contra other
      exact changed (if_neg (Ne.symm other))
    rw [e]
    refine ⟨fun b changed => .inl ⟨d, ?_⟩, ?_⟩
    · rw [byte b changed, BitVec.ofNat_toNat, BitVec.setWidth_eq]
      exact ⟨rfl, inWindow⟩
    · simp
  · rw [e] at parameter ⊢
    cases i with
    | nop => simp [Laws.body]
    | decode =>
      have empty : s.status.calValid = false := passes
      simp [Laws.body, Ref.popped, decodeBody, encode, empty]
    | encode =>
      obtain ⟨w, runs, written⟩ := Laws.encodeBody_spec (Ref.popped s rest)
      have others (a : Nat) (ha : ¬ Ref.calw a) : Memory.read w a = Memory.read s.win a := by
        rw [written]
        exact read_writeAll_enc_other canonical s.coef ha
      rw [Laws.body, runs]
      refine ⟨fun a changed => .inr (.inl ⟨rfl, ?_⟩), by simp⟩
      by_contra ha
      exact changed (others a ha)
    | compT =>
      obtain ⟨r, runs, -⟩ := Laws.tempBody_spec (Ref.popped s rest)
      simp [Laws.body, runs, commitTemp_eq, encode]
    | compP =>
      obtain ⟨r, runs, -⟩ := Laws.pressBody_spec (Ref.popped s rest)
      simp [Laws.body, runs, commitPress_eq, encode]
    | compH =>
      obtain ⟨r, runs, -⟩ := Laws.humBody_spec (Ref.popped s rest)
      simp [Laws.body, runs, commitHum_eq, encode]
    | sample =>
      obtain ⟨rt, rp, rh, runs, -⟩ := Laws.sampleBody_spec (Ref.popped s rest)
      simp [Laws.body, runs, commitSample_eq, encode]
    | reset => exact absurd rfl hi

end Sys2Proof.Proofs

/-! Proofs for the statements of 00_scope.md section 4 on the parameter `H6_SIGNED`: what it decides (R7, R13), and what the
commands leave under its two settings. -/

namespace Sys2Proof.Proofs

open Sys2Proof.Machine

/-! ### What the parameter decides -/

/-- The byte of H6 as the number that the setting takes it for. -/
def h6Value (b : Bool) (v : Byte) : Int := if b then Ref.sext 8 v.toNat else v.toNat

theorem h6Value_false (v : Byte) : h6Value false v = v.toNat := if_neg Bool.false_ne_true

theorem h6Value_true (v : Byte) : h6Value true v = Ref.sext 8 v.toNat := if_pos rfl

/-- The coefficients as numbers under a setting, whatever the state's own is. -/
def xUnder (b : Bool) (s : State) (i : Nat) : Int := if i = 17 then h6Value b s.coef.h6 else Ref.x s i

theorem x_h6 (s : State) (b : Bool) : Ref.x { s with h6Signed := b } 17 = h6Value b s.coef.h6 := by
  rw [h6Value, ← Laws.toInt_eq_sext (by decide)]
  rfl

/-- Under either setting the coefficients but H6 are the same numbers, and H6 is its byte's. -/
theorem x_h6Signed (s : State) (b : Bool) : Ref.x { s with h6Signed := b } = xUnder b s := by
  funext i
  by_cases hi : i = 17
  · rw [xUnder, if_pos hi, hi, x_h6]
  · rw [xUnder, if_neg hi]
    unfold Ref.x
    split <;> first | rfl | exact absurd rfl hi

theorem h6Operand_value (b : Bool) (c : Coefs) : (h6Operand b c).toInt = h6Value b c.h6 :=
  (Laws.h6Operand_toInt { State.reset with coef := c, h6Signed := b }).trans (x_h6 { State.reset with coef := c } b)

theorem coefWord_h6 (b : Bool) (c : Coefs) : ((coefWord b c 17).toNat : Int) = h6Value b c.h6 % 65536 := by
  rw [← x_h6 { State.reset with coef := c } b]
  exact Laws.coefWord_toNat { State.reset with coef := c, h6Signed := b } 17

/-- Of COEF_RB, only the word of H6 depends on the parameter (10_state.md R13). -/
theorem coefWord_h6Signed (c : Coefs) {i : Nat} (hi : i ≠ 17) (b b' : Bool) : coefWord b c i = coefWord b' c i := by
  unfold coefWord
  split <;> first | rfl | exact absurd rfl hi

/-- The two bytes of H6's word: its own byte, and the extension of its sign where the setting gives it one. -/
theorem h6Value_bytes (b : Bool) (v : Byte) :
    h6Value b v % 65536 % 256 = v.toNat ∧
      h6Value b v % 65536 / 256 = if b = true ∧ 128 ≤ v.toNat then 255 else 0 := by
  have := v.isLt
  unfold h6Value Ref.sext
  cases b
  · simp
    omega
  · simp
    split <;> split <;> omega

/-- The reads of H6's word in COEF_RB (10_state.md R13). -/
theorem readAnswer_h6 (s : State) (b : Bool) :
    readAnswer 0x42#8 { s with h6Signed := b } = s.coef.h6 ∧
    readAnswer 0x43#8 { s with h6Signed := b } = if b = true ∧ 128 ≤ s.coef.h6.toNat then 0xFF#8 else 0x00#8 := by
  obtain ⟨low, high⟩ := h6Value_bytes b s.coef.h6
  rw [← x_h6] at low high
  have first := readAnswer_coefByte { s with h6Signed := b } (i := 17) (j := 0) (by decide) (by decide)
  have second := readAnswer_coefByte { s with h6Signed := b } (i := 17) (j := 1) (by decide) (by decide)
  rw [pow_zero, Int.ediv_one, low] at first
  rw [pow_one, high] at second
  refine ⟨BitVec.eq_of_toNat_eq (by exact_mod_cast first), BitVec.eq_of_toNat_eq ?_⟩
  split at second <;> rename_i negative
  · rw [if_pos negative]
    exact_mod_cast second
  · rw [if_neg negative]
    exact_mod_cast second

/-- COMP_H takes H6 for the number its setting says. -/
theorem exec_compH_h6Signed {s : State} (calibrated : s.status.calValid = true) (b : Bool) :
    ∃ t, exec .compH { s with h6Signed := b } = .next t ∧
      (t.hum.toNat : Int) = (Ref.hum Ref.wrapS (xUnder b s) (Ref.rawH s) s.tFine.toInt).hum := by
  obtain ⟨t, runs, hum, -⟩ := (compHFollowsTheFormula.2 { s with h6Signed := b }).2 calibrated
  rw [x_h6Signed] at hum
  exact ⟨t, runs, hum⟩

/-- SAMPLE takes H6 for the number its setting says. -/
theorem exec_sample_h6Signed {s : State} (calibrated : s.status.calValid = true) (b : Bool) :
    ∃ t, exec .sample { s with h6Signed := b } = .next t ∧
      (t.hum.toNat : Int) = (Ref.hum Ref.wrapS (xUnder b s) (Ref.rawH s) t.tFine.toInt).hum := by
  obtain ⟨t, runs, fine, -, -, hum, -⟩ := (sampleComputesAllThree.2 { s with h6Signed := b }).2 calibrated
  rw [← fine, x_h6Signed] at hum
  exact ⟨t, runs, hum⟩

/-! ### The example of 95_test_vectors.md section 2.6 -/

/-- Vectors V-H5 and V-H6: the formula on one byte of H6, read as 226 and as -30. -/
theorem hum_example_h6 {s : State} (h1 : Ref.x s 12 = 75) (h2 : Ref.x s 13 = 367) (h3 : Ref.x s 14 = 0)
    (h4 : Ref.x s 15 = 301) (h5 : Ref.x s 16 = 50) (h6 : s.coef.h6 = 0xE2#8) :
    (Ref.hum Ref.wrapS (xUnder false s) 30000 128422).hum = 68 ∧
      (Ref.hum Ref.wrapS (xUnder true s) 30000 128422).hum = 57 := by
  have unsigned : h6Value false s.coef.h6 = 226 := by simp [h6, h6Value_false]
  have signed : h6Value true s.coef.h6 = -30 := by simp [h6, h6Value_true, Ref.sext]
  constructor
  · simp [Ref.hum, Ref.wrapS, xUnder, unsigned, h1, h2, h3, h4, h5]
  · simp [Ref.hum, Ref.wrapS, xUnder, signed, h1, h2, h3, h4, h5]

/-- Settles O48: the parameter is no step's to write, and each of its uses takes H6 for `h6Value`. -/
theorem signednessOfH6IsAParameter : Obligations.SignednessOfH6IsAParameter := by
  refine ⟨rfl, fun s t taken => ?kept, fun c => ⟨?operand, ?operandSigned, ?word, ?wordSigned,
    fun i hi b => coefWord_h6Signed c hi b false⟩, readAnswer_h6,
    fun s b calibrated => ⟨exec_compH_h6Signed calibrated b, exec_sample_h6Signed calibrated b⟩,
    fun s calibrated fine raw h1 h2 h3 h4 h5 h6 => ⟨?unsigned, ?signed⟩⟩
  case kept =>
    rcases Laws.step_cases taken with ⟨-, rfl⟩ | ⟨tr, rest, -, rfl⟩
    · rfl
    · exact (after_host tr _).2.1
  case operand => rw [h6Operand_value, h6Value_false]
  case operandSigned => rw [h6Operand_value, h6Value_true]
  case wordSigned => rw [coefWord_h6, h6Value_true]
  case word =>
    have := c.h6.isLt
    rw [coefWord_h6, h6Value_false]
    exact Int.emod_eq_of_lt (by omega) (by omega)
  case unsigned =>
    obtain ⟨t, runs, hum⟩ := exec_compH_h6Signed calibrated false
    rw [raw, fine, (hum_example_h6 h1 h2 h3 h4 h5 h6).1] at hum
    exact ⟨t, runs, by exact_mod_cast hum⟩
  case signed =>
    obtain ⟨t, runs, hum⟩ := exec_compH_h6Signed calibrated true
    rw [raw, fine, (hum_example_h6 h1 h2 h3 h4 h5 h6).2] at hum
    exact ⟨t, runs, by exact_mod_cast hum⟩

/-! ### What the commands leave under the two settings -/

/-- A body that does not compute a humidity does not read the parameter. -/
theorem body_h6Signed {i : Instr} (hH : i ≠ .compH) (hS : i ≠ .sample) (s : State) (b : Bool) :
    Laws.body i { s with h6Signed := b } = { Laws.body i s with h6Signed := b } := by
  cases i with
  | nop => rfl
  | decode => rfl
  | encode =>
    obtain ⟨w, e, written⟩ := Laws.encodeBody_spec s
    obtain ⟨w', e', written'⟩ := Laws.encodeBody_spec { s with h6Signed := b }
    rw [Laws.body, e, e', written, written']
  | compT =>
    obtain ⟨r, e, e'⟩ := tempBody_result (s := s) (w := s.win) rfl b
    rw [Laws.body, e]
    exact e'
  | compP =>
    obtain ⟨r, e, e'⟩ := pressBody_result (s := s) (w := s.win) rfl b
    rw [Laws.body, e]
    exact e'
  | compH => exact absurd rfl hH
  | sample => exact absurd rfl hS
  | reset => rfl

/-- A humidity committed under the two settings: the states differ in HUM and OVF alone. -/
theorem commitHum_h6Signed (r r' : HumResult) (u : State) :
    let t : State := commitHum r { u with h6Signed := false }
    let t' : State := commitHum r' { u with h6Signed := true }
    t' = { t with h6Signed := true, hum := t'.hum, errstat := { t.errstat with ovf := t'.errstat.ovf } } := rfl

/-- COMP_H and SAMPLE end, under either setting, in the commit of a humidity on the same state. -/
theorem body_commits_hum {i : Instr} (hi : i = .compH ∨ i = .sample) (s : State) :
    ∃ u : State, ∀ b, ∃ r, Laws.body i { s with h6Signed := b } = commitHum r { u with h6Signed := b } := by
  rcases hi with rfl | rfl
  · exact ⟨s, fun b => ⟨_, rfl⟩⟩
  · refine ⟨pressBody (tempBody s), fun b => ?_⟩
    have temp := body_h6Signed (i := .compT) nofun nofun s b
    have press := body_h6Signed (i := .compP) nofun nofun (tempBody s) b
    refine ⟨_, (congrArg humBody ((congrArg pressBody temp).trans press)).trans rfl⟩

/-- Settles O49: a refusal is the same under both settings, and so is all of a body but the humidity it commits. -/
theorem commandEndStatesUnderH6Signed : Obligations.CommandEndStatesUnderH6Signed := by
  intro i s
  have check (b : Bool) : Laws.refusedForSequence i { s with h6Signed := b } = Laws.refusedForSequence i s := by
    cases i <;> rfl
  cases refused : Laws.refusedForSequence i s
  case true =>
    exact ⟨_, _, Laws.exec_refused ((check false).trans refused), Laws.exec_refused ((check true).trans refused), rfl,
      fun _ _ => rfl⟩
  case false =>
    have runs := Laws.exec_runs ((check false).trans refused)
    have runs' := Laws.exec_runs ((check true).trans refused)
    by_cases hi : i = .compH ∨ i = .sample
    · obtain ⟨u, commits⟩ := body_commits_hum hi s
      obtain ⟨r, e⟩ := commits false
      obtain ⟨r', e'⟩ := commits true
      rw [e] at runs
      rw [e'] at runs'
      exact ⟨_, _, runs, runs', commitHum_h6Signed r r' u, fun hH hS => (hi.elim hH hS).elim⟩
    · obtain ⟨hH, hS⟩ := not_or.mp hi
      rw [body_h6Signed hH hS] at runs runs'
      exact ⟨_, _, runs, runs', rfl, fun _ _ => rfl⟩

end Sys2Proof.Proofs
